-- ==== Sys2Proof/Word.lean ====
section
/-! DEFINITION. The widths of the Enigma rotor core: its words, bytes and alphabet indices (spec/00_scope.md R7, R8). -/

namespace Sys2Proof

/-- A command or response word: 32 bits, bit 31 the most significant (R7, R32). -/
abbrev Word := BitVec 32

/-- A character: an 8-bit byte (R7, R12). -/
abbrev Byte := BitVec 8

/-- An alphabet index: a position 0..25 of the 26-symbol alphabet (R6, R7, R13).
The type carries the bound, so no stage of the signal path can form an index outside a table (R28). -/
abbrev Index := Fin 26

end Sys2Proof
end

