-- ==== Sys2Proof/Config.lean ====
section
/-! DEFINITION. What is fixed when the core is elaborated: the shape of the parameters of spec/00_scope.md R6 and the
sizes of this hardware. The VALUES of the tables and of the reset configuration stand in Sys2Proof/Machine/Registries.lean. -/

namespace Sys2Proof

/-- A look-up table from alphabet indices to alphabet indices, 26 entries (R28). -/
abbrev Table := Vector Index 26

/-- One rotor type (R13, R55): its forward wiring and its notch set.
`notches` is the 26-bit mask of R28: bit `o` is set when `o` is a notch. -/
structure RotorType where
  wiring  : Table
  notches : BitVec 26
deriving DecidableEq, Repr

/-- The rotor-type registry and the reflector registry (R55): `NTYPES` rotor types, identified 1..NTYPES, and
`NREFL` reflectors, identified 0..NREFL-1. -/
structure Registry where
  ntypes     : Nat
  nrefl      : Nat
  rotors     : Vector RotorType ntypes
  reflectors : Vector Table nrefl
deriving DecidableEq, Repr

/-- A configuration of `n` rotor slots (R95): the types and the offsets, fast to slow, and the reflector.
The fields are the raw register widths of R14, so that an illegal configuration can be staged (R22). -/
structure Configuration (n : Nat) where
  types : Vector (BitVec 4) n
  offs  : Vector (BitVec 5) n
  refl  : BitVec 4
deriving DecidableEq, Repr

namespace Config

/-- `NROT`, the number of rotor slots: 3 for this hardware (R6; notes/assumptions/10.md). -/
abbrev NROT : Nat := 3

/-- `NTYPES`, the number of rotor types: 8, identifiers 1..8 = I..VIII (R6). -/
abbrev NTYPES : Nat := 8

/-- `NREFL`, the number of reflectors: 3, identifiers 0, 1, 2 = A, B, C (R6). -/
abbrev NREFL : Nat := 3

end Config

end Sys2Proof
end

