-- ==== Sys2Proof/Syntax.lean ====
section
/-! DEFINITION. The commands of spec/opcode_table.json (spec/30_encoding.md), the errors a command word can raise
(spec/60_exceptions.md R104), and the source lines of the spec's command syntax (R52, R53). -/

namespace Sys2Proof

/-- The six commands, one constructor per row of the opcode table. Each operand has exactly the width of its field
(R42 to R45), so every term is encodable and every encodable operand value is a term: a field value outside the
operand's legal range is no decoding error (R46). -/
inductive Instr where
  /-- Format C, op 0x0 (R42, R93). -/
  | enc (ch : Byte)
  /-- Format S, op 0x1 (R43, R94). -/
  | setslot (slot type : BitVec 4) (off : BitVec 5)
  /-- Format F, op 0x2 (R44, R96). -/
  | setrefl (rid : BitVec 4)
  /-- Format N, op 0x3 (R45, R99). -/
  | commit
  /-- Format Q, op 0x4 (R45, R101). -/
  | rdslot (slot : BitVec 4)
  /-- Format N, op 0x5 (R45, R102). -/
  | rdrefl
deriving DecidableEq, Repr

/-- The errors of R104. Codes 0 and 7..15 name no error: 0 is OK, the others are reserved and never raised. -/
inductive Error where
  /-- E_ILLEGAL_OP: an opcode 0x6..0xF (R106). -/
  | illegalOp
  /-- E_RSVD_BITS: a defined opcode with a reserved bit set (R107). -/
  | rsvdBits
  /-- E_SLOT: a slot operand of NROT or above (R108). -/
  | slot
  /-- E_CFG_ROTOR: COMMIT of an unknown rotor identifier (R109). -/
  | cfgRotor
  /-- E_CFG_OFFSET: COMMIT of an offset above 25 (R110). -/
  | cfgOffset
  /-- E_CFG_REFL: COMMIT of an unknown reflector identifier (R111). -/
  | cfgRefl
deriving DecidableEq, Repr

/-- One line of the command syntax after its operands have been read as numbers: the six commands of R52 and the two
pseudo-instructions of R53. The numbers are unbounded here; `Source.WellFormed` holds the ranges R52 gives them. -/
inductive Source where
  | enc (ch : Nat)
  | setslot (slot type off : Nat)
  | setrefl (rid : Nat)
  | commit
  | rdslot (slot : Nat)
  | rdrefl
  | config (types offs : List Nat) (refl : Nat)
  | encs (text : List Nat)
deriving DecidableEq, Repr

end Sys2Proof
end

