-- ==== Sys2Proof/Decode.lean ====
section
/-! DEFINITION. The command word (spec/30_encoding.md): decoding, total on every 32-bit word (R50), then the encoder and
the opcode table of R47. -/

namespace Sys2Proof

/-- The five layouts of a command word (R42 to R45). -/
inductive Format where
  | c | s | f | q | n
deriving DecidableEq, Repr

/-- Every bit the format reserves is 0 (R42 to R45). -/
def Format.reservedClear (fmt : Format) (w : Word) : Bool :=
  match fmt with
  | .c => w.extractLsb 27 8 == 0
  | .s => w.extractLsb 23 12 == 0 && w.extractLsb 7 5 == 0
  | .f => w.extractLsb 27 4 == 0
  | .q => w.extractLsb 23 0 == 0
  | .n => w.extractLsb 27 24 == 0 && w.extractLsb 23 0 == 0

/-- `cmd[31:28]` (R41). -/
def opcodeOf (w : Word) : BitVec 4 := w.extractLsb 31 28

/-- `cmd[27:24]`, the slot field of formats S and Q (R43, R45). -/
def slotField (w : Word) : BitVec 4 := w.extractLsb 27 24

/-- `i` where the format's reserved bits are 0, and otherwise E_RSVD_BITS (R49, R92 (2)). -/
def checked (fmt : Format) (w : Word) (i : Instr) : Except Error Instr :=
  if fmt.reservedClear w then .ok i else .error .rsvdBits

/-- Decoding (R47, R50, R92): the opcode first, then the reserved bits. -/
def decode (w : Word) : Except Error Instr :=
  match (opcodeOf w).toNat with
  | 0 => checked .c w (.enc (w.extractLsb 7 0))
  | 1 => checked .s w (.setslot (slotField w) (w.extractLsb 11 8) (w.extractLsb 4 0))
  | 2 => checked .f w (.setrefl (w.extractLsb 3 0))
  | 3 => checked .n w .commit
  | 4 => checked .q w (.rdslot (slotField w))
  | 5 => checked .n w .rdrefl
  | _ => .error .illegalOp

/-- The word of an instruction: its format's fields in place, every reserved bit 0 (R42 to R45, R52). -/
def encode : Instr → Word
  | .enc ch               => 0x0#4 ++ 0#20 ++ ch
  | .setslot slot ty off  => 0x1#4 ++ slot ++ 0#12 ++ ty ++ 0#3 ++ off
  | .setrefl rid          => 0x2#4 ++ 0#24 ++ rid
  | .commit               => 0x3#4 ++ 0#4 ++ 0#24
  | .rdslot slot          => 0x4#4 ++ slot ++ 0#24
  | .rdrefl               => 0x5#4 ++ 0#4 ++ 0#24

/-- One row of the opcode map (R47): the fixed bits of a command word. -/
structure OpcodeRow where
  mask : Word
  bits : Word
deriving DecidableEq, Repr

/-- The word `w` matches the row's fixed bits. -/
def OpcodeRow.fits (r : OpcodeRow) (w : Word) : Bool := w &&& r.mask == r.bits

/-- The row of R47 an instruction belongs to. -/
def Instr.row : Instr → OpcodeRow
  | .enc _         => ⟨0xFFFFFF00, 0x00000000⟩
  | .setslot _ _ _ => ⟨0xF0FFF0E0, 0x10000000⟩
  | .setrefl _     => ⟨0xFFFFFFF0, 0x20000000⟩
  | .commit        => ⟨0xFFFFFFFF, 0x30000000⟩
  | .rdslot _      => ⟨0xF0FFFFFF, 0x40000000⟩
  | .rdrefl        => ⟨0xFFFFFFFF, 0x50000000⟩

/-- The six rows of R47, in the table's order. -/
def opcodeTable : List OpcodeRow :=
  [(Instr.enc 0).row, (Instr.setslot 0 0 0).row, (Instr.setrefl 0).row, Instr.commit.row, (Instr.rdslot 0).row,
    Instr.rdrefl.row]

/-- The command word whose bits are `w`, of which the table numbers `nbits`: a command is one 32-bit parallel word, so
no byte order arises (R32), and every bit from `nbits` up is 0 (notes/assumptions/9.md). -/
def tableWord (nbits w : Nat) : Word := BitVec.ofNat 32 (w % 2 ^ nbits)

/-- The instruction the decoder reads from a row's word, if it accepts it. -/
def decodeTableWord (nbits w : Nat) : Option Instr := (decode (tableWord nbits w)).toOption

end Sys2Proof
end

