-- ==== Sys2Proof/Machine/Registries.lean ====
section
/-! DEFINITION. The registries of spec/40_registries.md: the four read-only look-up spaces of spec/20_memory.md R28, when
a configuration is legal (R95), and the reference values of this hardware (R58 to R60) with its reset configuration (R6). -/

namespace Sys2Proof

/-- The rotor type that `t` identifies: types are numbered from 1, and 0 and every `t` above NTYPES are unknown (R55). -/
def Registry.rotor? (g : Registry) (t : BitVec 4) : Option RotorType :=
  if t = 0 then none else g.rotors[t.toNat - 1]?

/-- The table no rotor or reflector register can name while the active configuration is legal.
DESIGN CHOICE, safe (notes/assumptions/4.md): R28 says such an index is never formed, and ENC faults before it could be. -/
def absentTable : Table := Vector.ofFn fun i => i

/-- `WIRING[t]` (R10, R28). -/
def Registry.wiring (g : Registry) (t : BitVec 4) : Table :=
  match g.rotor? t with
  | some r => r.wiring
  | none   => absentTable

/-- The index whose entry in `w` is `j`, found by searching the table (R29). -/
def Table.positionOf (w : Table) (j : Index) : Index :=
  ((List.finRange 26).find? fun i => w.get i == j).getD 0

/-- `INV[t][j]`: the `i` with `WIRING[t][i] = j` (R10, R29). It is no data of its own: it is computed from `WIRING[t]`. -/
def Registry.inv (g : Registry) (t : BitVec 4) (j : Index) : Index :=
  Table.positionOf (g.wiring t) j

/-- `NOTCHES[t]` as the mask of R28. -/
def Registry.notches (g : Registry) (t : BitVec 4) : BitVec 26 :=
  match g.rotor? t with
  | some r => r.notches
  | none   => 0

/-- `isNotch(t, o)`: `o` is an element of `NOTCHES[t]` (R10, R64). -/
def Registry.isNotch (g : Registry) (t : BitVec 4) (o : BitVec 5) : Bool :=
  (g.notches t).getLsbD o.toNat

/-- `REFL[r]` (R10, R28). -/
def Registry.reflector (g : Registry) (r : BitVec 4) : Table :=
  (g.reflectors[r.toNat]?).getD absentTable

/-- A legal configuration (R95): every type in 1..NTYPES, every offset in 0..25, the reflector in 0..NREFL-1. -/
abbrev Configuration.Legal {n : Nat} (g : Registry) (c : Configuration n) : Prop :=
  (∀ i : Fin n, 1 ≤ (c.types.get i).toNat ∧ (c.types.get i).toNat ≤ g.ntypes ∧ (c.offs.get i).toNat ≤ 25) ∧ c.refl.toNat < g.nrefl

/-- The notch mask whose elements are the listed positions (R28). -/
def notchMask (positions : List Nat) : BitVec 26 :=
  positions.foldl (fun m o => m ||| BitVec.ofNat 26 (2 ^ o)) 0

namespace Config

/-! The reference tables are the spec's values for this hardware, which the spec itself marks as general knowledge
(R58 to R60, N1 to N3). UNVERIFIED, unsafe: notes/assumptions/2.md. -/

/-- Rotor I: `WIRING[1]` (R58), `NOTCHES[1] = {Q}` (R59). -/
def rotorI : RotorType :=
  ⟨#v[4, 10, 12, 5, 11, 6, 3, 16, 21, 25, 13, 19, 14, 22, 24, 7, 23, 20, 18, 15, 0, 8, 1, 17, 2, 9], notchMask [16]⟩

/-- Rotor II: `WIRING[2]` (R58), `NOTCHES[2] = {E}` (R59). -/
def rotorII : RotorType :=
  ⟨#v[0, 9, 3, 10, 18, 8, 17, 20, 23, 1, 11, 7, 22, 19, 12, 2, 16, 6, 25, 13, 15, 24, 5, 21, 14, 4], notchMask [4]⟩

/-- Rotor III: `WIRING[3]` (R58), `NOTCHES[3] = {V}` (R59). -/
def rotorIII : RotorType :=
  ⟨#v[1, 3, 5, 7, 9, 11, 2, 15, 17, 19, 23, 21, 25, 13, 24, 4, 8, 22, 6, 0, 10, 12, 20, 18, 16, 14], notchMask [21]⟩

/-- Rotor IV: `WIRING[4]` (R58), `NOTCHES[4] = {J}` (R59). -/
def rotorIV : RotorType :=
  ⟨#v[4, 18, 14, 21, 15, 25, 9, 0, 24, 16, 20, 8, 17, 7, 23, 11, 13, 5, 19, 6, 10, 3, 2, 12, 22, 1], notchMask [9]⟩

/-- Rotor V: `WIRING[5]` (R58), `NOTCHES[5] = {Z}` (R59). -/
def rotorV : RotorType :=
  ⟨#v[21, 25, 1, 17, 6, 8, 19, 24, 20, 15, 18, 3, 13, 7, 11, 23, 0, 22, 12, 10, 16, 2, 4, 9, 5, 14], notchMask [25]⟩

/-- Rotor VI: `WIRING[6]` (R58), `NOTCHES[6] = {Z, M}` (R59). -/
def rotorVI : RotorType :=
  ⟨#v[9, 15, 6, 21, 14, 20, 12, 5, 24, 16, 1, 4, 13, 7, 25, 17, 3, 10, 0, 18, 23, 11, 8, 2, 19, 22], notchMask [25, 12]⟩

/-- Rotor VII: `WIRING[7]` (R58), `NOTCHES[7] = {Z, M}` (R59). -/
def rotorVII : RotorType :=
  ⟨#v[13, 25, 9, 7, 6, 17, 2, 23, 12, 24, 18, 22, 1, 14, 20, 5, 0, 8, 21, 11, 15, 4, 10, 16, 3, 19], notchMask [25, 12]⟩

/-- Rotor VIII: `WIRING[8]` (R58), `NOTCHES[8] = {Z, M}` (R59). -/
def rotorVIII : RotorType :=
  ⟨#v[5, 10, 16, 7, 19, 11, 23, 14, 2, 1, 9, 18, 15, 3, 25, 17, 0, 12, 4, 22, 13, 8, 20, 24, 6, 21], notchMask [25, 12]⟩

/-- Reflector A: `REFL[0]` (R60). -/
def reflectorA : Table :=
  #v[4, 9, 12, 25, 0, 11, 24, 23, 21, 1, 22, 5, 2, 17, 16, 20, 14, 13, 19, 18, 15, 8, 10, 7, 6, 3]

/-- Reflector B: `REFL[1]` (R60). -/
def reflectorB : Table :=
  #v[24, 17, 20, 7, 16, 18, 11, 3, 15, 23, 13, 6, 14, 10, 12, 8, 4, 1, 5, 25, 2, 22, 21, 9, 0, 19]

/-- Reflector C: `REFL[2]` (R60). -/
def reflectorC : Table :=
  #v[5, 21, 15, 9, 8, 0, 14, 24, 4, 3, 17, 25, 23, 22, 6, 2, 19, 10, 20, 16, 18, 1, 13, 12, 7, 11]

/-- The registries of this hardware (R6, R58 to R60). -/
def registry : Registry where
  ntypes     := NTYPES
  nrefl      := NREFL
  rotors     := #v[rotorI, rotorII, rotorIII, rotorIV, rotorV, rotorVI, rotorVII, rotorVIII]
  reflectors := #v[reflectorA, reflectorB, reflectorC]

/-- `RESET_TYPES`, `RESET_OFFS`, `RESET_REFL` (R6, R124, R125): (III, II, I) fast to slow at offsets (0, 0, 0),
reflector B. -/
def resetConfig : Configuration NROT where
  types := #v[3, 2, 1]
  offs  := #v[0, 0, 0]
  refl  := 1

end Config

end Sys2Proof
end

