-- ==== Sys2Proof/Machine/Slots.lean ====
section
/-! DEFINITION. The rotor slots and the active configuration (spec/10_state.md R14, R20, R21), and the active
configuration that a configuration makes (spec/43_commands.md R99, R100). -/

namespace Sys2Proof.Machine

open Sys2Proof

/-- One active rotor slot (R14, R20): its rotor-type identifier, its offset and its pending-turnover flag. -/
structure Slot where
  type   : BitVec 4
  offset : BitVec 5
  pend   : Bool
deriving DecidableEq, Repr

/-- The active configuration of `n` rotor slots and the active reflector (R14, R20, R21). Slot 0 is the fastest. -/
structure Active (n : Nat) where
  slots : Vector Slot n
  refl  : BitVec 4
deriving DecidableEq, Repr

/-- The machine that a configuration makes: its types, offsets and reflector, with every flag at 0 (R99, R100). -/
def Active.ofConfiguration {n : Nat} (c : Configuration n) : Active n where
  slots := Vector.ofFn fun i => { type := c.types.get i, offset := c.offs.get i, pend := false }
  refl  := c.refl

end Sys2Proof.Machine
end

