-- ==== Sys2Proof/Machine/State.lean ====
section
/-! DEFINITION. The state of the core (spec/10_state.md R14), the inputs still to come at its port (spec/30_encoding.md
R40, spec/70_reset_and_hazards.md R123), the ways a step can stop, and the state after reset (R124). Plain data only. -/

namespace Sys2Proof.Machine

open Sys2Proof

/-- The response registers (R14, R27). -/
structure Response where
  valid : Bool
  data  : Word
  err   : Bool
  code  : BitVec 4
deriving DecidableEq, Repr

/-- What the inputs carry at one rising clock edge: `rst` (R123), `cmd_valid` and `cmd` (R40). -/
structure PortInput where
  rst      : Bool
  cmdValid : Bool
  cmd      : Word
deriving DecidableEq, Repr

/-- The state. `active`, `staging` and `rsp` are R14's elements, exactly. `port` is the MODEL'S own field: what the
inputs carry at the next edges, soonest first. DESIGN CHOICE, safe (notes/assumptions/1.md). -/
structure State where
  active  : Active Config.NROT
  staging : Configuration Config.NROT
  rsp     : Response
  port    : List PortInput
deriving DecidableEq, Repr

/-- Why the machine stops with a fault. The spec's own errors (R104) are responses, not faults. -/
inductive Fault where
  /-- Raised by ENC of a letter in a state whose active configuration is illegal, where a stage of the round or of the
  signal path would need a table entry or an operand the spec says is never formed (R23, R24, R28). No step from a
  legal state leads to such a state. DESIGN CHOICE, safe (notes/assumptions/4.md). -/
  | illegalActiveConfiguration
deriving DecidableEq, Repr

/-- Why the model gives an instruction no meaning. -/
inductive Refusal where
  /-- The instruction has no meaning yet: raised by an arm of `exec` alone. Safe. No arm raises it in this model. -/
  | notModelled (mnemonic : String)
deriving DecidableEq, Repr

/-- The response registers after reset (R124). -/
def Response.reset : Response where
  valid := false
  data  := 0
  err   := false
  code  := 0

/-- The machine right after reset (R124, R125): the reset configuration active and staged, flags and response 0, and
nothing waiting at the port. The model starts here and has no state before the first reset (R127;
DEDUCED, notes/assumptions/5.md). -/
def State.reset : State where
  active  := Active.ofConfiguration Config.resetConfig
  staging := Config.resetConfig
  rsp     := Response.reset
  port    := []

end Sys2Proof.Machine
end

