-- ==== Sys2Proof/Machine/Operands.lean ====
section
/-! DEFINITION. Operands and the primitives on them: the modular arithmetic of spec/00_scope.md R9, the characters of
R12, the slot operand of spec/30_encoding.md R46, and the response words of R51. -/

namespace Sys2Proof.Machine

open Sys2Proof

/-- `add26` (R9). -/
def add26 (a b : Index) : Index := ⟨(a.val + b.val) % 26, Nat.mod_lt _ (by decide)⟩

/-- `sub26` (R9). -/
def sub26 (a b : Index) : Index := ⟨(26 + a.val - b.val) % 26, Nat.mod_lt _ (by decide)⟩

/-- The alphabet index an offset register holds. Offsets of active state are 0..25 (R24), where this is the register's
value; for 26..31 it is the value modulo 26, on which no meaning rests (notes/assumptions/4.md). -/
def indexOf (o : BitVec 5) : Index := ⟨o.toNat % 26, Nat.mod_lt _ (by decide)⟩

/-- The offset register that holds an alphabet index (R7). -/
def offsetOf (i : Index) : BitVec 5 := BitVec.ofNat 5 i.val

/-- `add26(o, 1)` on an offset register: the offset after one step (R9, R68). -/
def nextOffset (o : BitVec 5) : BitVec 5 := offsetOf (add26 (indexOf o) 1)

/-- `isLetter` (R12): ASCII A..Z or a..z. -/
def isLetter (c : Byte) : Bool :=
  (0x41 ≤ c.toNat && c.toNat ≤ 0x5A) || (0x61 ≤ c.toNat && c.toNat ≤ 0x7A)

/-- `letterIndex` (R12), of a letter of either case. -/
def letterIndex (c : Byte) : Index :=
  if c.toNat ≤ 0x5A then Fin.ofNat 26 (c.toNat - 0x41) else Fin.ofNat 26 (c.toNat - 0x61)

/-- `letterByte` (R12): the uppercase letter of an index. -/
def letterByte (i : Index) : Byte := BitVec.ofNat 8 (0x41 + i.val)

/-- `zext_32` (R8). -/
def zext32 {n : Nat} (v : BitVec n) : Word := v.setWidth 32

/-- The slot a slot operand names, or none where it is NROT or above (R46, R94, R101). -/
def slotOperand {n : Nat} (slot : BitVec 4) : Option (Fin n) :=
  if h : slot.toNat < n then some ⟨slot.toNat, h⟩ else none

/-- The response word of RDSLOT (R51, R101): `type` at 19:16, `pend` at 8, `offset` at 4:0, all other bits 0. -/
def Slot.word (s : Slot) : Word := 0#12 ++ s.type ++ 0#7 ++ BitVec.ofBool s.pend ++ 0#3 ++ s.offset

/-- The response word of RDREFL (R51, R102): `NROT` at 15:8, `refl` at 3:0, all other bits 0. -/
def Active.reflWord {n : Nat} (a : Active n) : Word := 0#16 ++ BitVec.ofNat 8 n ++ 0#4 ++ a.refl

/-- The response code of an error (R104). -/
def errorCode : Error → BitVec 4
  | .illegalOp => 1
  | .rsvdBits  => 2
  | .slot      => 3
  | .cfgRotor  => 4
  | .cfgOffset => 5
  | .cfgRefl   => 6

end Sys2Proof.Machine
end

