-- ==== Sys2Proof/Machine/Flags.lean ====
section
/-! DEFINITION. The pending-turnover flags (spec/10_state.md R18), the only status flags: `cycle` sets one
(spec/41_stepping.md R68), step 3 of the round clears one (R72), and COMMIT clears all (`Active.ofConfiguration`). -/

namespace Sys2Proof.Machine

open Sys2Proof

/-- The flag after the offset has become `o` (R68): set when `o` is a notch, and never cleared. -/
def pendAfter (g : Registry) (t : BitVec 4) (o : BitVec 5) (pend : Bool) : Bool := pend || g.isNotch t o

/-- The slot with its flag cleared (R72). -/
def Slot.clearPend (s : Slot) : Slot := { s with pend := false }

/-- The self-step test of step 2 (R71): the slot stands on one of its notches. It reads no flag. -/
def Slot.onNotch (g : Registry) (s : Slot) : Bool := g.isNotch s.type s.offset

end Sys2Proof.Machine
end

