-- ==== Sys2Proof/Machine/Ops.lean ====
section
/-! DEFINITION. The named operations on the state: the response registers (spec/10_state.md R27), raising an error
(spec/60_exceptions.md R105, R113), an edge with no command (R120), reset (spec/70_reset_and_hazards.md R123), and the
writes of the staging registers and of the active configuration. The core has no memory (spec/20_memory.md R30) and no
trap, so nothing is saved by an error and nothing is returned from (R113, R115). -/

namespace Sys2Proof.Machine

open Sys2Proof

/-- `respond(data, err, code)` (R27). -/
def State.respond (s : State) (data : Word) (err : Bool) (code : BitVec 4) : State :=
  { s with rsp := { valid := true, data := data, err := err, code := code } }

/-- The response of a command that completes: `rsp_err = 0`, `rsp_code = 0` (R51). -/
def State.complete (s : State) (data : Word) : State := s.respond data false 0

/-- `raise E(info)` (R11, R105, R113): the response alone changes. -/
def State.raise (s : State) (e : Error) (info : Word) : State := s.respond info true (errorCode e)

/-- An edge at which no command is accepted (R27, R120): `rsp_valid <- 0`, and every other register keeps its value. -/
def State.idle (s : State) : State := { s with rsp := { s.rsp with valid := false } }

/-- An edge with `rst = 1` (R123): every state element takes its reset value. The inputs still to come are no state
element of the core, and stay. -/
def State.hardReset (s : State) : State := { State.reset with port := s.port }

/-- The active configuration becomes `a`. -/
def State.activate (s : State) (a : Active Config.NROT) : State := { s with active := a }

/-- `st_type[i] <- type`, `st_off[i] <- off` (R94): the raw field values, legal or not (R22). -/
def State.stageSlot (s : State) (i : Fin Config.NROT) (type : BitVec 4) (off : BitVec 5) : State :=
  { s with staging := { s.staging with types := s.staging.types.set i type, offs := s.staging.offs.set i off } }

/-- `st_refl <- rid` (R96). -/
def State.stageRefl (s : State) (rid : BitVec 4) : State := { s with staging := { s.staging with refl := rid } }

/-- The configuration the active slots hold (R95). -/
def Active.configuration {n : Nat} (a : Active n) : Configuration n where
  types := Vector.ofFn fun i => (a.slots.get i).type
  offs  := Vector.ofFn fun i => (a.slots.get i).offset
  refl  := a.refl

/-- The active configuration is legal (R23, R24). -/
abbrev Active.Legal {n : Nat} (g : Registry) (a : Active n) : Prop := a.configuration.Legal g

end Sys2Proof.Machine
end

