-- ==== Sys2Proof/Machine/Construction.lean ====
section
/-! DEFINITION. SETSLOT, SETREFL and COMMIT (spec/43_commands.md R94 to R100): a configuration is staged, validated and
installed whole. -/

namespace Sys2Proof.Machine

open Sys2Proof

/-- An error and the `rsp_data` that goes with it (R104). -/
abbrev Failure := Error × Word

/-- R97 for one slot `i`: the type before the offset. -/
def validateSlot (g : Registry) (i : Nat) (type : BitVec 4) (off : BitVec 5) : Option Failure :=
  if type.toNat = 0 ∨ type.toNat > g.ntypes then some (.cfgRotor, BitVec.ofNat 32 i)
  else if off.toNat > 25 then some (.cfgOffset, BitVec.ofNat 32 i)
  else none

/-- R97 for the reflector. -/
def validateRefl (g : Registry) (refl : BitVec 4) : Option Failure :=
  if refl.toNat ≥ g.nrefl then some (.cfgRefl, zext32 refl) else none

/-- `validate()` (R97, R98): the first failure, slots in increasing order and the reflector last; none is OK. -/
def validate {n : Nat} (g : Registry) (c : Configuration n) : Option Failure :=
  ((List.finRange n).findSome? fun i => validateSlot g i.val (c.types.get i) (c.offs.get i)).or (validateRefl g c.refl)

/-- SETSLOT (R94). -/
def execSetslot (slot type : BitVec 4) (off : BitVec 5) (s : State) : Host.Outcome State Fault Refusal :=
  match slotOperand slot with
  | some i => .next ((s.stageSlot i type off).complete 0)
  | none   => .next (s.raise .slot (zext32 slot))

/-- SETREFL (R96). -/
def execSetrefl (rid : BitVec 4) (s : State) : Host.Outcome State Fault Refusal :=
  .next ((s.stageRefl rid).complete 0)

/-- COMMIT (R99): on success the staged configuration becomes the active one with every flag 0 (R100); on a failure the
machine that was active keeps running. The staging registers keep their values. -/
def execCommit (s : State) : Host.Outcome State Fault Refusal :=
  match validate Config.registry s.staging with
  | some (e, info) => .next (s.raise e info)
  | none           => .next ((s.activate (Active.ofConfiguration s.staging)).complete 0)

end Sys2Proof.Machine
end

