-- ==== Sys2Proof/Machine/SignalPath.lean ====
section
/-! DEFINITION. The character substitution pipeline (spec/42_signal_path.md), for any number of slots. It reads the
slots and the reflector and writes no state (R81). -/

namespace Sys2Proof.Machine

open Sys2Proof

/-- The plugboard stage, present and always identity (R83). -/
def plug (x : Index) : Index := x

/-- The forward pass through a slot (R84). -/
def Slot.fwd (g : Registry) (s : Slot) (x : Index) : Index :=
  let a := add26 x (indexOf s.offset)
  let b := (g.wiring s.type).get a
  sub26 b (indexOf s.offset)

/-- The backward pass through a slot (R86). -/
def Slot.bwd (g : Registry) (s : Slot) (x : Index) : Index :=
  let a := add26 x (indexOf s.offset)
  let b := g.inv s.type a
  sub26 b (indexOf s.offset)

/-- The forward cascade: slots 0, 1, ..., N-1 in that order (R84, R87). -/
def forward (g : Registry) (slots : List Slot) (x : Index) : Index := slots.foldl (fun y s => s.fwd g y) x

/-- The backward cascade: slots N-1, N-2, ..., 0 in that order (R86, R87). -/
def backward (g : Registry) (slots : List Slot) (x : Index) : Index := slots.foldr (fun s y => s.bwd g y) x

/-- The reflection, with no offset applied (R85). -/
def reflect (g : Registry) (refl : BitVec 4) (x : Index) : Index := (g.reflector refl).get x

/-- The whole path (R87). -/
def Active.path {n : Nat} (g : Registry) (a : Active n) (x : Index) : Index :=
  plug (backward g a.slots.toList (reflect g a.refl (forward g a.slots.toList (plug x))))

end Sys2Proof.Machine
end

