-- ==== Sys2Proof/Machine/Stepping.lean ====
section
/-! DEFINITION. Rotor stepping (spec/41_stepping.md), for any number of slots: `cycle` (R68) and the round (R67), whose
three steps run in this order (R69), each reading the slots as the one before it left them (R65). -/

namespace Sys2Proof.Machine

open Sys2Proof

/-- `cycle` on one slot (R68): the offset advances by 1 modulo 26, and landing on a notch sets the flag. -/
def Slot.cycled (g : Registry) (s : Slot) : Slot :=
  let o := nextOffset s.offset
  { type := s.type, offset := o, pend := pendAfter g s.type o s.pend }

/-- `cycle(i)` (R68). There is no slot `n` or above. -/
def cycle {n : Nat} (g : Registry) (i : Nat) (v : Vector Slot n) : Vector Slot n :=
  if h : i < n then v.set i (v[i].cycled g) else v

/-- Step 2 of the round (R71, R73, R75): slot 1, where there is one, cycles itself if it stands on its notch. -/
def selfStep {n : Nat} (g : Registry) (v : Vector Slot n) : Vector Slot n :=
  if h : 1 < n then (if v[1].onNotch g then cycle g 1 v else v) else v

/-- Step 3 of the round at index `i` (R72): a set flag is cleared and carried into the next slot. -/
def carry {n : Nat} (g : Registry) (v : Vector Slot n) (i : Nat) : Vector Slot n :=
  if h : i + 1 < n then
    (if v[i].pend then cycle g (i + 1) (v.set i v[i].clearPend) else v)
  else v

/-- Step 3 of the round (R72): the indices 0..N-2 in increasing order, so that a flag set at one index is carried on at
the next index of the same round (R66, R76). That a carry is taken in the round that armed it, and not in the next one,
is the spec's decision (spec/90_conflicts.md C1, D9) and unsafe if it is wrong: notes/assumptions/3.md. -/
def carryAll {n : Nat} (g : Registry) (v : Vector Slot n) : Vector Slot n :=
  (List.range (n - 1)).foldl (carry g) v

/-- The round (R67). -/
def round {n : Nat} (g : Registry) (v : Vector Slot n) : Vector Slot n :=
  carryAll g (selfStep g (cycle g 0 v))

/-- The active configuration after a round: the slots step, and the reflector does not rotate (R67, R85). -/
def Active.stepped {n : Nat} (g : Registry) (a : Active n) : Active n := { a with slots := round g a.slots }

end Sys2Proof.Machine
end

