-- ==== Sys2Proof/Machine/Encode.lean ====
section
/-! DEFINITION. ENC (spec/43_commands.md R93). -/

namespace Sys2Proof.Machine

open Sys2Proof

/-- The output byte of a letter at an active configuration the round has already stepped (R82, R93). -/
def Active.encipher {n : Nat} (g : Registry) (a : Active n) (ch : Byte) : Byte :=
  letterByte (a.path g (letterIndex ch))

/-- ENC (R93): a letter runs one round and then the signal path, as one unit (R34, R63, R81); any other byte is returned
unchanged with no round. A letter at an illegal active configuration, which no step from a legal state leads to, faults
(notes/assumptions/4.md). -/
def execEnc (ch : Byte) (s : State) : Host.Outcome State Fault Refusal :=
  if isLetter ch then
    if s.active.Legal Config.registry then
      let a := s.active.stepped Config.registry
      .next ((s.activate a).complete (zext32 (a.encipher Config.registry ch)))
    else .fault .illegalActiveConfiguration
  else .next (s.complete (zext32 ch))

end Sys2Proof.Machine
end

