-- ==== Sys2Proof/Machine/Reads.lean ====
section
/-! DEFINITION. RDSLOT and RDREFL (spec/43_commands.md R101, R102), the only observation of internal state
(spec/60_exceptions.md R119). -/

namespace Sys2Proof.Machine

open Sys2Proof

/-- RDSLOT (R101): the active slot, never the staging registers. -/
def execRdslot (slot : BitVec 4) (s : State) : Host.Outcome State Fault Refusal :=
  match slotOperand slot with
  | some i => .next (s.complete (s.active.slots.get i).word)
  | none   => .next (s.raise .slot (zext32 slot))

/-- RDREFL (R102): the active reflector and the slot count. -/
def execRdrefl (s : State) : Host.Outcome State Fault Refusal := .next (s.complete s.active.reflWord)

end Sys2Proof.Machine
end

