-- ==== Sys2Proof/Machine/Dispatch.lean ====
section
/-! DEFINITION. One arm per command of spec/opcode_table.json. -/

namespace Sys2Proof.Machine

open Sys2Proof

def exec (i : Instr) (s : State) : Host.Outcome State Fault Refusal :=
  match i with
  | .enc ch => Sys2Proof.Machine.execEnc ch s
  | .setslot slot type off => Sys2Proof.Machine.execSetslot slot type off s
  | .setrefl rid => Sys2Proof.Machine.execSetrefl rid s
  | .commit => Sys2Proof.Machine.execCommit s
  | .rdslot slot => Sys2Proof.Machine.execRdslot slot s
  | .rdrefl => Sys2Proof.Machine.execRdrefl s

end Sys2Proof.Machine
end

