-- ==== Sys2Proof/Machine/Port.lean ====
section
/-! DEFINITION. The command port and one rising clock edge (spec/30_encoding.md R40, spec/43_commands.md R92,
spec/70_reset_and_hazards.md R123, R128). -/

namespace Sys2Proof.Machine

open Sys2Proof

/-- A word is accepted (R92): an error of decoding is raised with `rsp_data` 0 (R104, R106, R107), and a command is
executed whole on this edge (R34, R128). -/
def accept (w : Word) (s : State) : Host.Outcome State Fault Refusal :=
  match decode w with
  | .ok i    => exec i s
  | .error e => .next (s.raise e 0)

/-- One rising clock edge with the inputs `p`: reset comes before any command (R123), then a valid word is accepted
(R40), and otherwise the edge is idle (R120). -/
def clockEdge (p : PortInput) (s : State) : Host.Outcome State Fault Refusal :=
  if p.rst then .next s.hardReset
  else if p.cmdValid then accept p.cmd s
  else .next s.idle

/-- The next edge: with what the inputs carry, taken off the front of `port`; with nothing waiting there, an edge with
`rst = 0` and `cmd_valid = 0` (notes/assumptions/1.md). -/
def nextEdge (s : State) : Host.Outcome State Fault Refusal :=
  match s.port with
  | []        => .next s.idle
  | p :: rest => clockEdge p { s with port := rest }

/-- The inputs that present the word `w`. -/
def PortInput.command (w : Word) : PortInput where
  rst      := false
  cmdValid := true
  cmd      := w

/-- The word `w` presented at the next edge, before everything already waiting. -/
def State.present (s : State) (w : Word) : State := { s with port := .command w :: s.port }

end Sys2Proof.Machine
end

