-- ==== Sys2Proof/Machine/Step.lean ====
section
/-! DEFINITION. One step is one rising clock edge (spec/70_reset_and_hazards.md R123, R128). -/

namespace Sys2Proof.Machine

open Sys2Proof

/-- One step: the next rising clock edge. Nothing between two edges is modelled (DEDUCED, notes/assumptions/7.md). -/
def step (s : State) : Host.Outcome State Fault Refusal := nextEdge s

/-- `s` with the command word of a table row presented at the next edge, so that the next step executes it
(notes/assumptions/9.md). -/
def State.withFetchWord (s : State) (nbits w : Nat) : State := s.present (tableWord nbits w)

end Sys2Proof.Machine
end

