-- ==== Sys2Proof/WellFormed.lean ====
section
/-! DEFINITION. What is refused before anything runs: a parameter set that fails spec/40_registries.md R62 or the ranges
of spec/00_scope.md R6, and a source line whose numbers are outside the ranges of spec/30_encoding.md R52, R53.
An `Instr` needs no check of its own: the width of every field is in its type (R42 to R46). -/

namespace Sys2Proof

/-- R62 (a): no two inputs of the table map to the same output, so the table is a bijection on 0..25. -/
abbrev Table.Bijective (w : Table) : Prop := ∀ i j : Index, w.get i = w.get j → i = j

/-- R62 (c): an involution with no fixed point. -/
abbrev Table.Reflecting (r : Table) : Prop := ∀ i : Index, r.get (r.get i) = i ∧ r.get i ≠ i

/-- The number of elements of a notch set. -/
def notchCount (m : BitVec 26) : Nat := (List.range 26).countP fun o => m.getLsbD o

/-- R62 (a), (b) for one rotor type. -/
abbrev RotorType.Valid (r : RotorType) : Prop :=
  r.wiring.Bijective ∧ (notchCount r.notches = 1 ∨ notchCount r.notches = 2)

/-- A legal registry (R62), of a size R6 allows. -/
structure Registry.Legal (g : Registry) : Prop where
  ntypes_range : 1 ≤ g.ntypes ∧ g.ntypes ≤ 15
  nrefl_range  : 1 ≤ g.nrefl ∧ g.nrefl ≤ 16
  rotors       : ∀ k : Fin g.ntypes, (g.rotors.get k).Valid
  reflectors   : ∀ k : Fin g.nrefl, (g.reflectors.get k).Reflecting

/-- A legal set of all the parameters of R6: the number of slots, the registries and the reset configuration. -/
structure ParametersLegal (n : Nat) (g : Registry) (reset : Configuration n) : Prop where
  nrot_range : 1 ≤ n ∧ n ≤ 16
  registry   : g.Legal
  reset      : reset.Legal g

/-- Validity is checked when the core is elaborated (R62, D24): with an illegal parameter set this theorem has no proof
and the model is not built (notes/assumptions/6.md). -/
theorem Config.parameters_legal : ParametersLegal Config.NROT Config.registry Config.resetConfig where
  nrot_range := by decide
  registry :=
    { ntypes_range := by decide
      nrefl_range  := by decide
      rotors       := by decide
      reflectors   := by decide }
  reset := by decide

/-- The numbers of a source line are in the ranges R52 gives its operands; CONFIG lists one type and one offset per
slot (R53: K = NROT-1), and a string holds bytes. -/
def Source.WellFormed : Source → Bool
  | .enc ch               => ch ≤ 255
  | .setslot slot ty off  => slot ≤ 15 && ty ≤ 15 && off ≤ 31
  | .setrefl rid          => rid ≤ 15
  | .commit               => true
  | .rdslot slot          => slot ≤ 15
  | .rdrefl               => true
  | .config types offs r  =>
    types.length == Config.NROT && offs.length == Config.NROT &&
      types.all (· ≤ 15) && offs.all (· ≤ 31) && r ≤ 15
  | .encs text            => text.all (· ≤ 255)

end Sys2Proof
end

