-- ==== Sys2Proof/Machine/Assembler.lean ====
section
/-! DEFINITION. The command syntax of spec/30_encoding.md R52 and the pseudo-instructions of R53: a source line is cut
into tokens, read as a `Source`, checked, expanded into commands and encoded. No state of the core takes part in it.
A line is its bytes, each a `Char` below 256. Conventions R52 leaves open: notes/assumptions/8.md. -/

namespace Sys2Proof.Machine

open Sys2Proof

/-- The tokens of a line: a word (a mnemonic, a number or a name), a quoted byte, a string, and punctuation. -/
inductive Token where
  | word (letters : List Char)
  | byte (b : Nat)
  | text (bytes : List Nat)
  | comma
  | opening
  | closing
deriving DecidableEq, Repr

/-- Where the reader of a line stands: between or inside words, or inside a string. The list is what it has read of the
word or the string, last character first. -/
inductive Reading where
  | code (read : List Char)
  | string (read : List Nat)
deriving DecidableEq, Repr

/-- The word read so far, if any, put before `rest`. -/
def endWord (read : List Char) (rest : List Token) : List Token :=
  if read.isEmpty then rest else .word read.reverse :: rest

/-- The characters of mnemonics, numbers and names. -/
def isWordChar (c : Char) : Bool := c.isAlphanum

/-- The tokens of a line up to its comment (R52); none where it holds a character with no place in the syntax. -/
def tokens : Reading → List Char → Option (List Token)
  | .code read, [] => some (endWord read [])
  | .code read, '\'' :: c :: '\'' :: rest => (tokens (.code []) rest).map fun ts => endWord read (.byte c.toNat :: ts)
  | .code read, c :: rest =>
    if c = ';' then some (endWord read [])
    else if c = '"' then (tokens (.string []) rest).map (endWord read)
    else if c = ',' then (tokens (.code []) rest).map fun ts => endWord read (.comma :: ts)
    else if c = '(' then (tokens (.code []) rest).map fun ts => endWord read (.opening :: ts)
    else if c = ')' then (tokens (.code []) rest).map fun ts => endWord read (.closing :: ts)
    else if c = ' ' ∨ c = '\t' then (tokens (.code []) rest).map (endWord read)
    else if isWordChar c then tokens (.code (c :: read)) rest
    else none
  | .string _, [] => none
  | .string read, c :: rest =>
    if c = '"' then (tokens (.code []) rest).map fun ts => .text read.reverse :: ts
    else tokens (.string (c.toNat :: read)) rest

/-- The value of a digit of a base up to 16. -/
def digit? (base : Nat) (c : Char) : Option Nat :=
  let d? := if '0' ≤ c ∧ c ≤ '9' then some (c.toNat - '0'.toNat)
    else if 'a' ≤ c ∧ c ≤ 'f' then some (c.toNat - 'a'.toNat + 10)
    else if 'A' ≤ c ∧ c ≤ 'F' then some (c.toNat - 'A'.toNat + 10)
    else none
  d?.filter (· < base)

/-- The number that digits write, most significant first. -/
def digits? (base : Nat) (cs : List Char) : Option Nat :=
  if cs.isEmpty then none
  else cs.foldl (fun n? c => n?.bind fun n => (digit? base c).map fun d => n * base + d) (some 0)

/-- A number: decimal, or `0x` and hexadecimal (R52). -/
def number? : List Char → Option Nat
  | '0' :: 'x' :: cs => digits? 16 cs
  | cs               => digits? 10 cs

/-- The Roman numerals of `<type>` (R52). -/
def romanNames : List (List Char × Nat) :=
  [(['I'], 1), (['I', 'I'], 2), (['I', 'I', 'I'], 3), (['I', 'V'], 4), (['V'], 5), (['V', 'I'], 6),
    (['V', 'I', 'I'], 7), (['V', 'I', 'I', 'I'], 8)]

/-- The letter of an operand as its alphabet index, up to the letter of index `last` (R52). -/
def letter? (last : Nat) : List Char → Option Nat
  | [c] => if 'A' ≤ c ∧ c.toNat ≤ 'A'.toNat + last then some (c.toNat - 'A'.toNat) else none
  | _   => none

/-- `<char>` (R52). -/
def charOperand? : Token → Option Nat
  | .byte b => some b
  | .word w => number? w
  | _       => none

/-- `<slot>` (R52). -/
def slotOperand? : Token → Option Nat
  | .word w => number? w
  | _       => none

/-- `<type>` (R52). -/
def typeOperand? : Token → Option Nat
  | .word w => (romanNames.lookup w).or (number? w)
  | _       => none

/-- `<off>` (R52): a letter A..Z or a number. -/
def offOperand? : Token → Option Nat
  | .word w => (letter? 25 w).or (number? w)
  | _       => none

/-- `<rid>` (R52): a letter A..C or a number. -/
def ridOperand? : Token → Option Nat
  | .word w => (letter? 2 w).or (number? w)
  | _       => none

/-- Operands separated by commas, up to the closing parenthesis, and the tokens after it. -/
def operands? (operand? : Token → Option Nat) : List Token → Option (List Nat × List Token)
  | t :: .closing :: rest => (operand? t).map fun x => ([x], rest)
  | t :: .comma :: rest   =>
    (operand? t).bind fun x => (operands? operand? rest).map fun (xs, after) => (x :: xs, after)
  | _ => none

/-- `CONFIG (t0, ..., tK), (o0, ..., oK), r` after its mnemonic (R53). -/
def config? : List Token → Option Source
  | .opening :: ts =>
    match operands? typeOperand? ts with
    | some (types, .comma :: .opening :: os) =>
      match operands? offOperand? os with
      | some (offs, [.comma, r]) => (ridOperand? r).map (.config types offs)
      | _ => none
    | _ => none
  | _ => none

/-- The commands and pseudo-instructions after their mnemonic (R52, R53). -/
def command? (mnemonic : List Char) (ts : List Token) : Option Source :=
  if mnemonic = ['E', 'N', 'C'] then
    match ts with
    | [c] => (charOperand? c).map .enc
    | _   => none
  else if mnemonic = ['S', 'E', 'T', 'S', 'L', 'O', 'T'] then
    match ts with
    | [s, .comma, t, .comma, o] =>
      (slotOperand? s).bind fun slot => (typeOperand? t).bind fun type => (offOperand? o).map (.setslot slot type)
    | _ => none
  else if mnemonic = ['S', 'E', 'T', 'R', 'E', 'F', 'L'] then
    match ts with
    | [r] => (ridOperand? r).map .setrefl
    | _   => none
  else if mnemonic = ['C', 'O', 'M', 'M', 'I', 'T'] then
    if ts.isEmpty then some .commit else none
  else if mnemonic = ['R', 'D', 'S', 'L', 'O', 'T'] then
    match ts with
    | [s] => (slotOperand? s).map .rdslot
    | _   => none
  else if mnemonic = ['R', 'D', 'R', 'E', 'F', 'L'] then
    if ts.isEmpty then some .rdrefl else none
  else if mnemonic = ['C', 'O', 'N', 'F', 'I', 'G'] then config? ts
  else if mnemonic = ['E', 'N', 'C', 'S'] then
    match ts with
    | [.text bs] => some (.encs bs)
    | _          => none
  else none

/-- The commands a source line stands for (R52, R53): CONFIG stages the slots in order, then the reflector, then
COMMITs, and ENCS encodes its bytes in order. -/
def expand : Source → List Instr
  | .enc ch                => [.enc (BitVec.ofNat 8 ch)]
  | .setslot slot type off => [.setslot (BitVec.ofNat 4 slot) (BitVec.ofNat 4 type) (BitVec.ofNat 5 off)]
  | .setrefl rid           => [.setrefl (BitVec.ofNat 4 rid)]
  | .commit                => [.commit]
  | .rdslot slot           => [.rdslot (BitVec.ofNat 4 slot)]
  | .rdrefl                => [.rdrefl]
  | .config types offs r   =>
    ((types.zip offs).zipIdx.map fun ((t, o), i) =>
      .setslot (BitVec.ofNat 4 i) (BitVec.ofNat 4 t) (BitVec.ofNat 5 o)) ++
      [.setrefl (BitVec.ofNat 4 r), .commit]
  | .encs text             => text.map fun b => .enc (BitVec.ofNat 8 b)

/-- The source line that tokens write: nothing for an empty line (R52), and none for what is no line of the syntax or
is outside its ranges. -/
def sourceLine? : List Token → Option (List Source)
  | []               => some []
  | .word w :: ts    => (command? w ts).bind fun c => if c.WellFormed then some [c] else none
  | _                => none

/-- The commands of one line of source. -/
def instructions? (line : List Char) : Option (List Instr) :=
  ((tokens (.code []) line).bind sourceLine?).map fun cs => cs.flatMap expand

/-- The words one line of source assembles to (R52, R53). -/
def assemble (line : List Char) : Option (List Word) := (instructions? line).map (List.map encode)

end Sys2Proof.Machine
end

