-- ==== Sys2Proof/Safety.lean ====
section
/-! DEFINITION. What counts as a safe state and a safe run, in the terms the statements use. -/

namespace Sys2Proof.Machine

open Sys2Proof

/-- No slot but the slowest holds a set flag: the state of the flags between commands (spec/10_state.md R19). -/
abbrev Active.CarriesDone {n : Nat} (a : Active n) : Prop :=
  ∀ i : Fin n, i.val + 1 < n → (a.slots.get i).pend = false

/-- Two active configurations that agree in everything but the flag of the slowest slot (R19, R26). -/
abbrev Active.SameButSlowestFlag {n : Nat} (a b : Active n) : Prop :=
  a.refl = b.refl ∧ ∀ i : Fin n,
    (a.slots.get i).type = (b.slots.get i).type ∧ (a.slots.get i).offset = (b.slots.get i).offset ∧
      (i.val + 1 < n → (a.slots.get i).pend = (b.slots.get i).pend)

/-- The response registers hold a code of the error table (spec/60_exceptions.md R104): none of the reserved codes
7..15, and code 0 exactly when there is no error. -/
abbrev Response.Coded (r : Response) : Prop := r.code.toNat ≤ 6 ∧ (r.err = true ↔ r.code ≠ 0)

/-- The invariant of the machine: the active configuration is legal (R23, R24), no carry is left over (R19), and the
response is one of the error table's (R104). -/
structure State.Inv (s : State) : Prop where
  legal   : s.active.Legal Config.registry
  carries : s.active.CarriesDone
  coded   : s.rsp.Coded

/-- A run of `k` edges that neither faults nor is refused, and ends in a state that meets the invariant. -/
def SafeRun (k : Nat) (s : State) : Prop := ∃ t : State, Host.Core.run core k s = .next t ∧ t.Inv

end Sys2Proof.Machine
end

