-- ==== Sys2Proof/Certificates/Slice0/Obligations.lean ====
section
/-! DEFINITION. The statements for the provers. Statements about the round, the path and the tables are made for every
legal registry and every number of slots, so that they do not rest on the reference tables (R58 to R60,
notes/assumptions/2.md); statements about `exec` and `step` are about this hardware. -/

open Sys2Proof Sys2Proof.Machine

/-! ## Encoding -/

/-- Decoding an encoded command gives it back, at every value of every operand field (from R42 to R47). -/
def Obligations.DecodeInvertsEncode : Prop := ∀ i : Instr, decode (encode i) = .ok i

/-- A word has one meaning: a word that decodes is the encoding of what it decodes to (from R47, R49, R50). -/
def Obligations.EncodeInvertsDecode : Prop := ∀ (w : Word) (i : Instr), decode w = .ok i → encode i = w

/-- R47: the masks and the fixed bits of the opcode map, and the reserved opcodes. -/
def Obligations.DecodeFollowsOpcodeMap : Prop :=
  ∀ w : Word,
    ((∃ ch, decode w = .ok (.enc ch)) ↔ w &&& 0xFFFFFF00 = 0x00000000) ∧
    ((∃ slot type off, decode w = .ok (.setslot slot type off)) ↔ w &&& 0xF0FFF0E0 = 0x10000000) ∧
    ((∃ rid, decode w = .ok (.setrefl rid)) ↔ w &&& 0xFFFFFFF0 = 0x20000000) ∧
    (decode w = .ok .commit ↔ w &&& 0xFFFFFFFF = 0x30000000) ∧
    ((∃ slot, decode w = .ok (.rdslot slot)) ↔ w &&& 0xF0FFFFFF = 0x40000000) ∧
    (decode w = .ok .rdrefl ↔ w &&& 0xFFFFFFFF = 0x50000000) ∧
    (decode w = .error .illegalOp ↔ 6 ≤ (w.extractLsb 31 28).toNat)

/-- R43, R44, R45 (and the layout of R42): the opcode, the reserved bits that are 0, and where each operand lies. -/
def Obligations.DecodeReadsOperandFields : Prop :=
  ∀ (w : Word) (i : Instr), decode w = .ok i →
    match i with
    | .enc ch => w.extractLsb 31 28 = 0 ∧ w.extractLsb 27 8 = 0 ∧ ch = w.extractLsb 7 0
    | .setslot slot type off =>
      w.extractLsb 31 28 = 1 ∧ w.extractLsb 23 12 = 0 ∧ w.extractLsb 7 5 = 0 ∧
        slot = w.extractLsb 27 24 ∧ type = w.extractLsb 11 8 ∧ off = w.extractLsb 4 0
    | .setrefl rid => w.extractLsb 31 28 = 2 ∧ w.extractLsb 27 4 = 0 ∧ rid = w.extractLsb 3 0
    | .commit => w.extractLsb 31 28 = 3 ∧ w.extractLsb 27 24 = 0 ∧ w.extractLsb 23 0 = 0
    | .rdslot slot => w.extractLsb 31 28 = 4 ∧ w.extractLsb 23 0 = 0 ∧ slot = w.extractLsb 27 24
    | .rdrefl => w.extractLsb 31 28 = 5 ∧ w.extractLsb 27 24 = 0 ∧ w.extractLsb 23 0 = 0

/-- R54: the spec's nine encoding examples, assembled from their source lines and decoded. -/
def Obligations.EncodingExamplesAssembleAndDecode : Prop :=
  [assemble ['E', 'N', 'C', ' ', '\'', 'A', '\''],
    assemble ['E', 'N', 'C', ' ', '\'', ' ', '\''],
    assemble ['S', 'E', 'T', 'S', 'L', 'O', 'T', ' ', '0', ',', ' ', 'I', 'I', 'I', ',', ' ', '0'],
    assemble ['S', 'E', 'T', 'S', 'L', 'O', 'T', ' ', '1', ',', ' ', 'I', 'I', ',', ' ', 'E'],
    assemble ['S', 'E', 'T', 'S', 'L', 'O', 'T', ' ', '2', ',', ' ', 'I', ',', ' ', '0'],
    assemble ['S', 'E', 'T', 'R', 'E', 'F', 'L', ' ', 'B'],
    assemble ['C', 'O', 'M', 'M', 'I', 'T'],
    assemble ['R', 'D', 'S', 'L', 'O', 'T', ' ', '1'],
    assemble ['R', 'D', 'R', 'E', 'F', 'L']] =
    [some [0x00000041], some [0x00000020], some [0x10000300], some [0x11000204], some [0x12000100],
      some [0x20000001], some [0x30000000], some [0x41000000], some [0x50000000]] ∧
  [0x00000041, 0x00000020, 0x10000300, 0x11000204, 0x12000100, 0x20000001, 0x30000000, 0x41000000, 0x50000000].map
      (fun w => (decode w).toOption) =
    [some (.enc 0x41), some (.enc 0x20), some (.setslot 0 3 0), some (.setslot 1 2 4), some (.setslot 2 1 0),
      some (.setrefl 1), some .commit, some (.rdslot 1), some .rdrefl]

/-- Every word the assembler makes is a command: no reserved opcode and no reserved bit (from R52). -/
def Obligations.AssembledWordsAreCommands : Prop :=
  ∀ (line : List Char) (ws : List Word), assemble line = some ws → ∀ w ∈ ws, ∃ i, decode w = .ok i

/-! ## Primitives -/

/-- R9: the modular primitives, and the adder with one conditional subtraction (or addition) of 26 that equals each. -/
def Obligations.ModularPrimitivesWrapAt26 : Prop :=
  ∀ a b : Index,
    (add26 a b).val = (a.val + b.val) % 26 ∧ (sub26 a b).val = (26 + a.val - b.val) % 26 ∧
    (add26 a b).val = (if a.val + b.val < 26 then a.val + b.val else a.val + b.val - 26) ∧
    (sub26 a b).val = (if b.val ≤ a.val then a.val - b.val else 26 + a.val - b.val)

/-- R12: the character primitives. -/
def Obligations.CharacterPrimitivesAreAscii : Prop :=
  (∀ c : Byte, isLetter c = true ↔
    (0x41 ≤ c.toNat ∧ c.toNat ≤ 0x5A) ∨ (0x61 ≤ c.toNat ∧ c.toNat ≤ 0x7A)) ∧
  (∀ c : Byte, isLetter c = true →
    (letterIndex c).val = if c.toNat ≤ 0x5A then c.toNat - 0x41 else c.toNat - 0x61) ∧
  ∀ i : Index, (letterByte i).toNat = 0x41 + i.val

/-! ## The port and one clock edge -/

/-- A step whose inputs present a command word is `exec` of the command it decodes to, at the state with that input
taken off the port (from R40, R92, R128; the port is the model's, notes/assumptions/1.md). -/
def Obligations.StepExecutesDecodedCommand : Prop :=
  ∀ (s : State) (w : Word) (rest : List PortInput) (i : Instr), decode w = .ok i →
    step { s with port := .command w :: rest } = exec i { s with port := rest }

/-- R48, R106, R107: a reserved opcode, and a set reserved bit under a defined opcode, each raise their error with
`rsp_data` 0 and change nothing else. The port is the model's (notes/assumptions/1.md). -/
def Obligations.StepRaisesDecodeErrors : Prop :=
  ∀ (s : State) (w : Word) (rest : List PortInput),
    (6 ≤ (w.extractLsb 31 28).toNat →
      step { s with port := .command w :: rest } =
        .next { s with rsp := { valid := true, data := 0, err := true, code := 1 }, port := rest }) ∧
    ((w.extractLsb 31 28 = 0 ∧ w &&& 0x0FFFFF00 ≠ 0) ∨ (w.extractLsb 31 28 = 1 ∧ w &&& 0x00FFF0E0 ≠ 0) ∨
      (w.extractLsb 31 28 = 2 ∧ w &&& 0x0FFFFFF0 ≠ 0) ∨ (w.extractLsb 31 28 = 3 ∧ w &&& 0x0FFFFFFF ≠ 0) ∨
      (w.extractLsb 31 28 = 4 ∧ w &&& 0x00FFFFFF ≠ 0) ∨ (w.extractLsb 31 28 = 5 ∧ w &&& 0x0FFFFFFF ≠ 0) →
      step { s with port := .command w :: rest } =
        .next { s with rsp := { valid := true, data := 0, err := true, code := 2 }, port := rest })

/-- R120: an edge with `rst = 0` and `cmd_valid = 0` changes no state except `rsp_valid`. -/
def Obligations.IdleEdgeChangesOnlyValid : Prop :=
  ∀ (s : State) (w : Word) (rest : List PortInput),
    step { s with port := { rst := false, cmdValid := false, cmd := w } :: rest } =
      .next { s with rsp := { s.rsp with valid := false }, port := rest }

/-- With nothing waiting at the port an edge is an idle one: the model's choice (notes/assumptions/1.md). -/
def Obligations.EmptyPortIsIdleEdge : Prop :=
  ∀ s : State, step { s with port := [] } = .next { s with rsp := { s.rsp with valid := false }, port := [] }

/-- R123, R124: an edge with `rst = 1` gives every state element its reset value, whatever `cmd_valid` and `cmd` are. -/
def Obligations.ResetEdgeRestoresResetValues : Prop :=
  ∀ (s : State) (valid : Bool) (w : Word) (rest : List PortInput),
    step { s with port := { rst := true, cmdValid := valid, cmd := w } :: rest } =
      .next {
        active := { slots := #v[⟨3, 0, false⟩, ⟨2, 0, false⟩, ⟨1, 0, false⟩], refl := 1 }
        staging := { types := #v[3, 2, 1], offs := #v[0, 0, 0], refl := 1 }
        rsp := { valid := false, data := 0, err := false, code := 0 }
        port := rest }

/-- R27: after an edge that accepted a word `rsp_valid` is 1 and the registers hold that command's response; after an
idle edge (`rst` and `cmd_valid` both 0) it is 0 and the other response registers keep their values; after a reset edge,
which accepts no word either, it is 0 too, and the others are at their reset value 0 (as R124 says, in
`ResetEdgeRestoresResetValues`); and what `respond` means. The premise is the invariant of legal states. An empty port is
`EmptyPortIsIdleEdge`. -/
def Obligations.ResponseValidFollowsAcceptance : Prop :=
  (∀ (s : State) (w : Word) (rest : List PortInput), s.active.Legal Config.registry →
    (∃ t, step { s with port := .command w :: rest } = .next t ∧ t.rsp.valid = true ∧
      ∀ i, decode w = .ok i → ∃ u, exec i { s with port := rest } = .next u ∧ t.rsp = u.rsp) ∧
    (∃ t, step { s with port := { rst := false, cmdValid := false, cmd := w } :: rest } = .next t ∧
      t.rsp.valid = false ∧ t.rsp.data = s.rsp.data ∧ t.rsp.err = s.rsp.err ∧ t.rsp.code = s.rsp.code) ∧
    ∀ valid : Bool, ∃ t, step { s with port := { rst := true, cmdValid := valid, cmd := w } :: rest } = .next t ∧
      t.rsp = { valid := false, data := 0, err := false, code := 0 }) ∧
  ∀ (s : State) (d : Word) (e : Bool) (c : BitVec 4),
    s.respond d e c = { s with rsp := { valid := true, data := d, err := e, code := c } }

/-- R113: a word whose response carries an error changes nothing but the response, and the next word is accepted at the
next edge as usual. The legality premise of the last clause is the invariant of R23, R24. -/
def Obligations.ErrorChangesOnlyResponse : Prop :=
  ∀ (s t : State) (w : Word) (rest : List PortInput),
    step { s with port := .command w :: rest } = .next t → t.rsp.err = true →
      t = { s with rsp := t.rsp, port := rest } ∧
      (s.active.Legal Config.registry → ∀ (w' : Word) (rest' : List PortInput),
        ∃ u, step { t with port := .command w' :: rest' } = .next u ∧ u.rsp.valid = true ∧ u.port = rest')

/-- Every command completes, with success or with an error its own rule names, in one step (from R92 to R102). -/
def Obligations.EveryCommandCompletes : Prop :=
  ∀ (i : Instr) (s : State), s.active.Legal Config.registry →
    ∃ t, exec i s = .next t ∧ t.rsp.valid = true ∧ t.port = s.port ∧
      ((t.rsp.err = false ∧ t.rsp.code = 0) ∨
        (t.rsp.err = true ∧
          match i with
          | .enc _         => False
          | .setslot _ _ _ => t.rsp.code = 3
          | .setrefl _     => False
          | .commit        => t.rsp.code = 4 ∨ t.rsp.code = 5 ∨ t.rsp.code = 6
          | .rdslot _      => t.rsp.code = 3
          | .rdrefl        => False))

/-! ## ENC -/

/-- R93: a non-letter is returned unchanged with no round; a letter, of either case, runs one round and then the path,
and the output is an uppercase letter that is not the upper-cased input; and the rule's example, which rests on the
reference tables (R58, R60). The legality premise of the letter case is the invariant of R23, R24. -/
def Obligations.EncRunsRoundThenPath : Prop :=
  (∀ (ch : Byte) (s : State),
    (¬((0x41 ≤ ch.toNat ∧ ch.toNat ≤ 0x5A) ∨ (0x61 ≤ ch.toNat ∧ ch.toNat ≤ 0x7A)) →
      exec (.enc ch) s = .next { s with rsp := { valid := true, data := ch.setWidth 32, err := false, code := 0 } }) ∧
    ∀ x : Index, (ch.toNat = 0x41 + x.val ∨ ch.toNat = 0x61 + x.val) → s.active.Legal Config.registry →
      let stepped : Active Config.NROT :=
        { slots := round Config.registry s.active.slots, refl := s.active.refl }
      let y := stepped.path Config.registry x
      exec (.enc ch) s =
        .next { s with
          active := stepped
          rsp := { valid := true, data := BitVec.ofNat 32 (0x41 + y.val), err := false, code := 0 } } ∧
      y ≠ x) ∧
  exec (.enc 0x41) State.reset =
    .next { State.reset with
      active := { slots := #v[⟨3, 1, false⟩, ⟨2, 0, false⟩, ⟨1, 0, false⟩], refl := 1 }
      rsp := { valid := true, data := 0x42, err := false, code := 0 } }

/-- The frame of ENC: a letter writes offsets and flags alone, beside the response (from R67, R81, R93). -/
def Obligations.EncWritesOnlyOffsetsAndFlags : Prop :=
  ∀ (ch : Byte) (s t : State), exec (.enc ch) s = .next t →
    (∀ i : Fin Config.NROT, (t.active.slots.get i).type = (s.active.slots.get i).type) ∧
    t.active.refl = s.active.refl ∧ t.staging = s.staging ∧ t.port = s.port ∧
    (isLetter ch = false → t.active = s.active)

/-- An ENC that faults does so only because the active configuration is illegal, which the model chose to stop on
(notes/assumptions/4.md), and nothing is ever refused. -/
def Obligations.OnlyIllegalConfigurationsFault : Prop :=
  (∀ (s : State) (f : Fault), step s = .fault f → ¬ s.active.Legal Config.registry) ∧
  ∀ (s : State) (r : Refusal), step s ≠ .refused r

/-! ## The round -/

/-- R68: `cycle` advances the offset modulo 26, sets the flag exactly on a notch, never clears it, and touches no other
slot; and the rule's example, which rests on the reference notch of type I (R59). -/
def Obligations.CycleAdvancesAndArms : Prop :=
  (∀ (n : Nat) (g : Registry) (v : Vector Slot n) (i : Nat) (h : i < n), v[i].offset.toNat ≤ 25 →
    (cycle g i v)[i].offset.toNat = (if v[i].offset.toNat = 25 then 0 else v[i].offset.toNat + 1) ∧
    ((cycle g i v)[i].pend = true ↔ v[i].pend = true ∨ g.isNotch v[i].type (cycle g i v)[i].offset = true) ∧
    (cycle g i v)[i].type = v[i].type ∧
    ∀ (j : Nat) (hj : j < n), j ≠ i → (cycle g i v)[j] = v[j]) ∧
  cycle Config.registry 0 #v[(⟨1, 15, false⟩ : Slot)] = #v[⟨1, 16, true⟩]

/-- The advances of one round: slot 0 by exactly 1; slot 1 by 1 for its own notch and by 1 for slot 0's carry; every
slower slot by 0 or 1 (R77, which the spec derives from R67, R70, R71, R72; the carry is taken in its own round,
notes/assumptions/3.md). -/
def Obligations.RoundAdvancesEachSlot : Prop :=
  ∀ (n : Nat) (g : Registry) (v : Vector Slot n), (∀ i : Fin n, (v.get i).offset.toNat ≤ 25) →
    (∀ h : 0 < n, (round g v)[0].offset.toNat = (v[0].offset.toNat + 1) % 26) ∧
    (∀ h : 1 < n,
      (round g v)[1].offset.toNat =
        (v[1].offset.toNat +
          (if g.isNotch v[1].type v[1].offset then 1 else 0) +
          (if v[0].pend || g.isNotch v[0].type (round g v)[0].offset then 1 else 0)) % 26) ∧
    ∀ (i : Nat) (h : i < n), 2 ≤ i →
      (round g v)[i].offset = v[i].offset ∨ (round g v)[i].offset.toNat = (v[i].offset.toNat + 1) % 26

/-- After a round no slot but the slowest holds a set flag, the slowest slot's flag is never cleared by one, and no type
changes (R19, which the spec derives from R68, R72; the carry is taken in its own round, notes/assumptions/3.md). -/
def Obligations.RoundLeavesNoCarry : Prop :=
  ∀ (n : Nat) (g : Registry) (v : Vector Slot n) (i : Nat) (h : i < n),
    (i + 1 < n → (round g v)[i].pend = false) ∧
    (i + 1 = n → v[i].pend = true → (round g v)[i].pend = true) ∧
    (round g v)[i].type = v[i].type

/-- A carry ripples: with no flag set before the round, a slot beyond slot 2 steps in a round exactly when the slot
before it stepped in that round and landed on a notch (R76, which the spec derives from R66, R72; the carry is taken in
its own round, notes/assumptions/3.md). -/
def Obligations.CarryRipplesThroughSlowSlots : Prop :=
  ∀ (n : Nat) (g : Registry) (v : Vector Slot n), (∀ i : Fin n, i.val + 1 < n → (v.get i).pend = false) →
    ∀ (i : Nat) (h : i + 1 < n), 2 ≤ i →
      (round g v)[i + 1].offset =
        if (round g v)[i].offset ≠ v[i].offset ∧ g.isNotch v[i].type (round g v)[i].offset = true then
          nextOffset v[i + 1].offset
        else v[i + 1].offset

/-- The sequential round equals one combinational function of the three slots, set flags below the slowest included
(from R65, R67, R79; the carries are taken in their own round, notes/assumptions/3.md). -/
def Obligations.RoundEqualsCombinationalFunction : Prop :=
  ∀ (g : Registry) (a b c : Slot),
    let carryA := a.pend || g.isNotch a.type (nextOffset a.offset)
    let selfB := g.isNotch b.type b.offset
    let offB := if selfB then nextOffset b.offset else b.offset
    let carryB := b.pend || (selfB && g.isNotch b.type (nextOffset b.offset)) ||
      (carryA && g.isNotch b.type (nextOffset offB))
    round g #v[a, b, c] =
      #v[{ type := a.type, offset := nextOffset a.offset, pend := false },
        { type := b.type, offset := if carryA then nextOffset offB else offB, pend := false },
        { type := c.type, offset := if carryB then nextOffset c.offset else c.offset,
          pend := c.pend || (carryB && g.isNotch c.type (nextOffset c.offset)) }]

/-- The double step, for three slots or more and a slot-1 type with the single notch `k`: (a) carried onto the notch,
then stepping itself in the next round; (b) stepping itself and carried in one round, with slot 2 at rest; and slot 1 is
2 further after 3 rounds in both set-ups of the source's regression test (R78, which the spec derives from R67, R68,
R71, R72; the carry is taken in its own round, notes/assumptions/3.md; the last two clauses rest on the reference
notches, R59). -/
def Obligations.MiddleSlotDoubleSteps : Prop :=
  (∀ (n : Nat) (h : 3 ≤ n) (g : Registry) (v : Vector Slot n) (k : BitVec 5), k.toNat ≤ 25 →
    (∀ o : BitVec 5, o.toNat ≤ 25 → (g.isNotch v[1].type o = true ↔ o = k)) →
    (∀ i : Fin n, i.val + 1 < n → (v.get i).pend = false) → v[1].offset.toNat ≤ 25 →
    g.isNotch v[0].type (nextOffset v[0].offset) = true →
    (nextOffset v[1].offset = k →
      (round g v)[1].offset = k ∧ (round g v)[2].offset = nextOffset v[2].offset ∧
      (selfStep g (cycle g 0 (round g v)))[1].offset = nextOffset k ∧
      (round g (round g v))[1].offset ≠ k ∧ (round g (round g v))[2].offset = (round g v)[2].offset) ∧
    (v[1].offset = k →
      (round g v)[1].offset = nextOffset (nextOffset k) ∧ (round g v)[2].offset = v[2].offset)) ∧
  ((round Config.registry)^[3] #v[(⟨3, 20, false⟩ : Slot), ⟨2, 4, false⟩, ⟨1, 0, false⟩])[1].offset = 6 ∧
  ((round Config.registry)^[3] #v[(⟨3, 20, false⟩ : Slot), ⟨2, 3, false⟩, ⟨1, 0, false⟩])[1].offset = 5

/-- One slot: the round is `cycle(0)` alone, the flag sticks, and 26 rounds bring the offset back (R74, which the spec
derives from R67, R68). -/
def Obligations.SingleSlotReturnsAfterRevolution : Prop :=
  ∀ (g : Registry) (v : Vector Slot 1), v[0].offset.toNat ≤ 25 →
    round g v = cycle g 0 v ∧
    (round g v)[0].offset.toNat = (v[0].offset.toNat + 1) % 26 ∧
    (g.isNotch v[0].type (round g v)[0].offset = true → (round g v)[0].pend = true) ∧
    (v[0].pend = true → (round g v)[0].pend = true) ∧
    ((round g)^[26] v)[0].offset = v[0].offset

/-- With two slots, slot 1 steps itself on its own notch although nothing is slower (R71, R75) and once more for slot 0's
carry, taken in the same round (R67, R72; notes/assumptions/3.md), and its flag sticks (R72, R75). -/
def Obligations.TwoSlotsSelfStepAndStick : Prop :=
  ∀ (g : Registry) (a b : Slot), a.offset.toNat ≤ 25 → b.offset.toNat ≤ 25 →
    (round g #v[a, b])[1].offset.toNat =
      (b.offset.toNat + (if g.isNotch b.type b.offset then 1 else 0) +
        (if a.pend || g.isNotch a.type (round g #v[a, b])[0].offset then 1 else 0)) % 26 ∧
    (b.pend = true → (round g #v[a, b])[1].pend = true)

/-! ## The signal path -/

/-- `INV[t][j]` is the one `i` with `WIRING[t][i] = j` (R29), in every legal registry. -/
def Obligations.InverseTableInvertsWiring : Prop :=
  ∀ (g : Registry) (t : BitVec 4) (j : Index), g.Legal → 1 ≤ t.toNat → t.toNat ≤ g.ntypes →
    (g.wiring t).get (g.inv t j) = j ∧ ∀ i : Index, (g.wiring t).get i = j → i = g.inv t j

/-- R84, R85, R86, R87: each stage as shifted look-ups modulo 26, the path as their cascade between the identity
plugboards, written out for three slots; and the rules' examples, which rest on the reference tables (R58, R60). -/
def Obligations.PathIsCascadeOfShiftedLookups : Prop :=
  (∀ (g : Registry) (s : Slot) (x : Index) (h : s.offset.toNat ≤ 25),
    let o : Index := ⟨s.offset.toNat, by omega⟩
    s.fwd g x = sub26 ((g.wiring s.type).get (add26 x o)) o ∧ s.bwd g x = sub26 (g.inv s.type (add26 x o)) o) ∧
  (∀ (g : Registry) (a b c : Slot) (r : BitVec 4) (x : Index),
    ({ slots := #v[a, b, c], refl := r } : Active 3).path g x =
      a.bwd g (b.bwd g (c.bwd g ((g.reflector r).get (c.fwd g (b.fwd g (a.fwd g x))))))) ∧
  (⟨3, 1, false⟩ : Slot).fwd Config.registry 0 = 2 ∧ (Config.registry.reflector 1).get 5 = 18 ∧
  (⟨1, 0, false⟩ : Slot).bwd Config.registry 18 = 18 ∧
  ({ slots := #v[⟨3, 1, false⟩, ⟨2, 0, false⟩, ⟨1, 0, false⟩], refl := 1 } : Active 3).path Config.registry 0 = 1

/-- The backward pass of a slot undoes its forward pass, and the other way round (R88, which the spec derives from R84,
R86, R29). -/
def Obligations.BackwardPassInvertsForwardPass : Prop :=
  ∀ (g : Registry) (s : Slot) (x : Index), g.Legal → 1 ≤ s.type.toNat → s.type.toNat ≤ g.ntypes →
    s.bwd g (s.fwd g x) = x ∧ s.fwd g (s.bwd g x) = x

/-- The path at a fixed state is an involution, for any number of slots; and two cores in one state exchange a letter
and its cipher letter (R89, which the spec derives from R85, R87, R88, R62). -/
def Obligations.PathIsInvolution : Prop :=
  (∀ (n : Nat) (g : Registry) (a : Active n) (x : Index), g.Legal → a.Legal g → a.path g (a.path g x) = x) ∧
  ∀ (ch : Byte) (s : State), isLetter ch = true → s.active.Legal Config.registry →
    ∃ t t', exec (.enc ch) s = .next t ∧ exec (.enc (t.rsp.data.extractLsb 7 0)) s = .next t' ∧
      t'.rsp.data = BitVec.ofNat 32 (0x41 + (letterIndex ch).val) ∧ t'.active = t.active

/-- No letter is enciphered to itself, for any number of slots, and at the port: compared after upper-casing (R90,
which the spec derives from R87, R88, R62). -/
def Obligations.PathHasNoFixedPoint : Prop :=
  (∀ (n : Nat) (g : Registry) (a : Active n) (x : Index), g.Legal → a.Legal g → a.path g x ≠ x) ∧
  ∀ (ch : Byte) (s t : State), isLetter ch = true → exec (.enc ch) s = .next t →
    t.rsp.data ≠ BitVec.ofNat 32 (0x41 + (letterIndex ch).val)

/-- The path is a bijection of the alphabet, and what ENC answers depends on the letter and the active state alone (R91,
which the spec derives from R89, R80). -/
def Obligations.PathIsBijective : Prop :=
  (∀ (n : Nat) (g : Registry) (a : Active n), g.Legal → a.Legal g → Function.Bijective (a.path g)) ∧
  ∀ (ch ch' : Byte) (s s' t : State), isLetter ch = true → isLetter ch' = true →
    letterIndex ch = letterIndex ch' → s.active = s'.active → exec (.enc ch) s = .next t →
    ∃ t', exec (.enc ch') s' = .next t' ∧ t'.rsp = t.rsp ∧ t'.active = t.active

/-! ## The registries -/

/-- The reference tables are a legal registry, with one notch for types I to V and two for VI to VIII (from R56, R61,
R62; the tables are R58 to R60, notes/assumptions/2.md). -/
def Obligations.ReferenceTablesAreLegal : Prop :=
  Config.registry.Legal ∧
  (∀ t : Fin 5, notchCount (Config.registry.notches (BitVec.ofNat 4 (t.val + 1))) = 1) ∧
  (∀ t : Fin 3, notchCount (Config.registry.notches (BitVec.ofNat 4 (t.val + 6))) = 2)

/-- Where the reference notches stand: on the historical turnover letters (from R57, R59; notes/assumptions/2.md). -/
def Obligations.ReferenceNotchesAreTurnoverLetters : Prop :=
  ∀ o : Fin 26,
    let o' : BitVec 5 := BitVec.ofNat 5 o.val
    (Config.registry.isNotch 1 o' = true ↔ o.val = 16) ∧ (Config.registry.isNotch 2 o' = true ↔ o.val = 4) ∧
    (Config.registry.isNotch 3 o' = true ↔ o.val = 21) ∧ (Config.registry.isNotch 4 o' = true ↔ o.val = 9) ∧
    (Config.registry.isNotch 5 o' = true ↔ o.val = 25) ∧
    (Config.registry.isNotch 6 o' = true ↔ o.val = 25 ∨ o.val = 12) ∧
    (Config.registry.isNotch 7 o' = true ↔ o.val = 25 ∨ o.val = 12) ∧
    (Config.registry.isNotch 8 o' = true ↔ o.val = 25 ∨ o.val = 12)

/-! ## Construction -/

/-- R94: SETSLOT stages the raw fields of one slot, legal or not, and nothing else; a slot operand of NROT or above is
E_SLOT with no effect. -/
def Obligations.SetslotStagesOneSlot : Prop :=
  ∀ (slot type : BitVec 4) (off : BitVec 5) (s : State),
    (slot.toNat < 3 →
      ∃ t, exec (.setslot slot type off) s = .next t ∧
        (∀ j : Fin 3,
          t.staging.types.get j = (if j.val = slot.toNat then type else s.staging.types.get j) ∧
          t.staging.offs.get j = (if j.val = slot.toNat then off else s.staging.offs.get j)) ∧
        t.staging.refl = s.staging.refl ∧ t.active = s.active ∧ t.port = s.port ∧
        t.rsp = { valid := true, data := 0, err := false, code := 0 }) ∧
    (3 ≤ slot.toNat →
      exec (.setslot slot type off) s =
        .next { s with rsp := { valid := true, data := slot.setWidth 32, err := true, code := 3 } })

/-- R96: SETREFL stages the raw identifier and changes nothing else. -/
def Obligations.SetreflStagesReflector : Prop :=
  ∀ (rid : BitVec 4) (s : State),
    exec (.setrefl rid) s =
      .next { s with
        staging := { types := s.staging.types, offs := s.staging.offs, refl := rid }
        rsp := { valid := true, data := 0, err := false, code := 0 } }

/-- R99, R100: COMMIT of a legal configuration (R95) makes it active with every flag 0, on a starting notch too; of an
illegal one it changes no active field and raises the error that `validate` found (which one: the next statement); the
staging registers keep their values. -/
def Obligations.CommitInstallsOrKeeps : Prop :=
  ∀ s : State,
    ((∀ i : Fin 3, 1 ≤ (s.staging.types.get i).toNat ∧ (s.staging.types.get i).toNat ≤ 8 ∧
        (s.staging.offs.get i).toNat ≤ 25) ∧ s.staging.refl.toNat < 3 →
      ∃ t, exec .commit s = .next t ∧
        (∀ i : Fin 3, t.active.slots.get i =
          { type := s.staging.types.get i, offset := s.staging.offs.get i, pend := false }) ∧
        t.active.refl = s.staging.refl ∧ t.staging = s.staging ∧ t.port = s.port ∧
        t.rsp = { valid := true, data := 0, err := false, code := 0 }) ∧
    (¬((∀ i : Fin 3, 1 ≤ (s.staging.types.get i).toNat ∧ (s.staging.types.get i).toNat ≤ 8 ∧
        (s.staging.offs.get i).toNat ≤ 25) ∧ s.staging.refl.toNat < 3) →
      ∃ e info, validate Config.registry s.staging = some (e, info) ∧
        (e = .cfgRotor ∨ e = .cfgOffset ∨ e = .cfgRefl) ∧
        ∃ t, exec .commit s = .next t ∧ t.active = s.active ∧ t.staging = s.staging ∧ t.port = s.port ∧
          t.rsp = { valid := true, data := info, err := true, code := errorCode e })

/-- R97, R98, R109, R110, R111: COMMIT reports the first failure alone: the lowest slot, its type before its offset, and
the reflector after every slot; with no failure it reports none. -/
def Obligations.CommitReportsFirstFailure : Prop :=
  ∀ s : State,
    let known (i : Fin 3) : Prop := 1 ≤ (s.staging.types.get i).toNat ∧ (s.staging.types.get i).toNat ≤ 8
    let good (i : Fin 3) : Prop := known i ∧ (s.staging.offs.get i).toNat ≤ 25
    (∀ i : Fin 3, (∀ j : Fin 3, j < i → good j) → ¬known i →
      exec .commit s =
        .next { s with rsp := { valid := true, data := BitVec.ofNat 32 i.val, err := true, code := 4 } }) ∧
    (∀ i : Fin 3, (∀ j : Fin 3, j < i → good j) → known i → 26 ≤ (s.staging.offs.get i).toNat →
      exec .commit s =
        .next { s with rsp := { valid := true, data := BitVec.ofNat 32 i.val, err := true, code := 5 } }) ∧
    ((∀ i : Fin 3, good i) → 3 ≤ s.staging.refl.toNat →
      exec .commit s =
        .next { s with rsp := { valid := true, data := s.staging.refl.setWidth 32, err := true, code := 6 } }) ∧
    ((∀ i : Fin 3, good i) → s.staging.refl.toNat < 3 →
      ∃ t, exec .commit s = .next t ∧ t.rsp = { valid := true, data := 0, err := false, code := 0 })

/-- A configuration staged slot by slot, then its reflector, then COMMIT, as CONFIG expands (R53), makes exactly that
configuration active from any state in one edge a command (from R53, R99, R129). -/
def Obligations.ConfigPseudoInstalls : Prop :=
  ∀ (s : State) (c : Configuration 3) (rest : List PortInput), c.Legal Config.registry →
    let line := Source.config (c.types.toList.map BitVec.toNat) (c.offs.toList.map BitVec.toNat) c.refl.toNat
    let inputs := (expand line).map fun i => PortInput.command (encode i)
    Host.Core.run core 5 { s with port := inputs ++ rest } =
      .next {
        active := { slots := Vector.ofFn fun i => ⟨c.types.get i, c.offs.get i, false⟩, refl := c.refl }
        staging := c
        rsp := { valid := true, data := 0, err := false, code := 0 }
        port := rest }

/-! ## Reads -/

/-- R101: RDSLOT answers type, flag and offset of the ACTIVE slot at their bits and changes nothing else; a slot operand
of NROT or above is E_SLOT. -/
def Obligations.RdslotReadsActiveSlot : Prop :=
  ∀ (slot : BitVec 4) (s : State),
    (∀ h : slot.toNat < 3, ∃ d : Word,
      exec (.rdslot slot) s = .next { s with rsp := { valid := true, data := d, err := false, code := 0 } } ∧
      d.toNat = s.active.slots[slot.toNat].type.toNat * 2 ^ 16 +
        (if s.active.slots[slot.toNat].pend then 2 ^ 8 else 0) + s.active.slots[slot.toNat].offset.toNat) ∧
    (3 ≤ slot.toNat →
      exec (.rdslot slot) s =
        .next { s with rsp := { valid := true, data := slot.setWidth 32, err := true, code := 3 } })

/-- R102: RDREFL answers NROT at 15:8 and the active reflector at 3:0 and changes nothing else. -/
def Obligations.RdreflReadsReflectorAndSlotCount : Prop :=
  ∀ s : State, ∃ d : Word,
    exec .rdrefl s = .next { s with rsp := { valid := true, data := d, err := false, code := 0 } } ∧
    d.toNat = 3 * 2 ^ 8 + s.active.refl.toNat

/-! ## Rules of the whole machine -/

/-- The active state is written only by an ENC of a letter, by a COMMIT and by reset (from R14, R18, R63). -/
def Obligations.OnlyLettersCommitsAndResetWriteActive : Prop :=
  ∀ s t : State, step s = .next t → t.active ≠ s.active →
    ∃ p rest, s.port = p :: rest ∧
      (p.rst = true ∨
        (p.cmdValid = true ∧
          (decode p.cmd = .ok .commit ∨ ∃ ch, decode p.cmd = .ok (.enc ch) ∧ isLetter ch = true)))

/-- The staging registers are written only by SETSLOT, by SETREFL and by reset (from R14, R22). -/
def Obligations.OnlyStagingCommandsAndResetWriteStaging : Prop :=
  ∀ s t : State, step s = .next t → t.staging ≠ s.staging →
    ∃ p rest, s.port = p :: rest ∧
      (p.rst = true ∨
        (p.cmdValid = true ∧
          ((∃ slot type off, decode p.cmd = .ok (.setslot slot type off)) ∨
            ∃ rid, decode p.cmd = .ok (.setrefl rid))))

/-- What is staged can be learned only through COMMIT: no other command's response or effect on the active state depends
on it (from R22, R26, R131). -/
def Obligations.StagingIsInvisibleWithoutCommit : Prop :=
  ∀ (i : Instr) (s t : State) (c : Configuration Config.NROT), i ≠ .commit → exec i s = .next t →
    ∃ t', exec i { s with staging := c } = .next t' ∧ t'.active = t.active ∧ t'.rsp = t.rsp

/-- The slowest slot's flag influences no response but RDSLOT's, no offset and no other flag: two states that differ in it
alone give the same response, and still differ in it alone (from R19, R26; it rests on the carry timing,
notes/assumptions/3.md). -/
def Obligations.SlowestFlagIsInvisible : Prop :=
  ∀ (i : Instr) (s s' t : State), (∀ slot, i ≠ .rdslot slot) →
    s.active.SameButSlowestFlag s'.active → s'.staging = s.staging → exec i s = .next t →
    ∃ t', exec i s' = .next t' ∧ t'.rsp = t.rsp ∧ t'.staging = t.staging ∧
      t.active.SameButSlowestFlag t'.active

/-- Once set, the slowest slot's flag stays set until a COMMIT that succeeds or a reset (from R18, R19, R72). -/
def Obligations.SlowestFlagSticks : Prop :=
  ∀ s t : State, step s = .next t → s.active.slots[2].pend = true → t.active.slots[2].pend = false →
    ∃ p rest, s.port = p :: rest ∧
      (p.rst = true ∨ (p.cmdValid = true ∧ decode p.cmd = .ok .commit ∧ t.rsp.err = false))

/-- The reset state meets the invariant (from R23, R24, R124). -/
def Obligations.ResetMeetsInvariant : Prop := State.reset.Inv

/-- Every step keeps the invariant: the active configuration stays legal (R23, R24), no carry is left between commands
(R19, on the carry timing of notes/assumptions/3.md), and no response carries a reserved code (R104). -/
def Obligations.StepKeepsInvariant : Prop := ∀ s t : State, s.Inv → step s = .next t → t.Inv

/-- From a state that meets the invariant the machine runs on for ever, whatever the inputs are: no step faults, none is
refused, and every state on the way meets the invariant (from R28, R87, R103, R113). -/
def Obligations.RunsNeverStop : Prop := ∀ (k : Nat) (s : State), s.Inv → SafeRun k s
end

