-- ==== Sys2Proof/Laws/State.lean ====
section
/-! SUPPORT. One lemma per field per update of the state, true by rfl. -/

namespace Sys2Proof.Machine

open Sys2Proof

variable (s : State) (d info w : Word) (b : Bool) (c : BitVec 4) (e : Error) (a : Active Config.NROT)
  (i : Fin Config.NROT) (ty rid : BitVec 4) (o : BitVec 5)

@[simp] theorem respond_active : (s.respond d b c).active = s.active := rfl
@[simp] theorem respond_staging : (s.respond d b c).staging = s.staging := rfl
@[simp] theorem respond_port : (s.respond d b c).port = s.port := rfl
@[simp] theorem respond_rsp : (s.respond d b c).rsp = ⟨true, d, b, c⟩ := rfl

@[simp] theorem complete_active : (s.complete d).active = s.active := rfl
@[simp] theorem complete_staging : (s.complete d).staging = s.staging := rfl
@[simp] theorem complete_port : (s.complete d).port = s.port := rfl
@[simp] theorem complete_rsp : (s.complete d).rsp = ⟨true, d, false, 0⟩ := rfl

@[simp] theorem raise_active : (s.raise e info).active = s.active := rfl
@[simp] theorem raise_staging : (s.raise e info).staging = s.staging := rfl
@[simp] theorem raise_port : (s.raise e info).port = s.port := rfl
@[simp] theorem raise_rsp : (s.raise e info).rsp = ⟨true, info, true, errorCode e⟩ := rfl

@[simp] theorem idle_active : s.idle.active = s.active := rfl
@[simp] theorem idle_staging : s.idle.staging = s.staging := rfl
@[simp] theorem idle_port : s.idle.port = s.port := rfl
@[simp] theorem idle_valid : s.idle.rsp.valid = false := rfl
@[simp] theorem idle_data : s.idle.rsp.data = s.rsp.data := rfl
@[simp] theorem idle_err : s.idle.rsp.err = s.rsp.err := rfl
@[simp] theorem idle_code : s.idle.rsp.code = s.rsp.code := rfl

@[simp] theorem hardReset_active : s.hardReset.active = State.reset.active := rfl
@[simp] theorem hardReset_staging : s.hardReset.staging = State.reset.staging := rfl
@[simp] theorem hardReset_rsp : s.hardReset.rsp = Response.reset := rfl
@[simp] theorem hardReset_port : s.hardReset.port = s.port := rfl

@[simp] theorem activate_active : (s.activate a).active = a := rfl
@[simp] theorem activate_staging : (s.activate a).staging = s.staging := rfl
@[simp] theorem activate_rsp : (s.activate a).rsp = s.rsp := rfl
@[simp] theorem activate_port : (s.activate a).port = s.port := rfl

@[simp] theorem stageSlot_active : (s.stageSlot i ty o).active = s.active := rfl
@[simp] theorem stageSlot_rsp : (s.stageSlot i ty o).rsp = s.rsp := rfl
@[simp] theorem stageSlot_port : (s.stageSlot i ty o).port = s.port := rfl
@[simp] theorem stageSlot_types : (s.stageSlot i ty o).staging.types = s.staging.types.set i ty := rfl
@[simp] theorem stageSlot_offs : (s.stageSlot i ty o).staging.offs = s.staging.offs.set i o := rfl
@[simp] theorem stageSlot_refl : (s.stageSlot i ty o).staging.refl = s.staging.refl := rfl

@[simp] theorem stageRefl_active : (s.stageRefl rid).active = s.active := rfl
@[simp] theorem stageRefl_rsp : (s.stageRefl rid).rsp = s.rsp := rfl
@[simp] theorem stageRefl_port : (s.stageRefl rid).port = s.port := rfl
@[simp] theorem stageRefl_types : (s.stageRefl rid).staging.types = s.staging.types := rfl
@[simp] theorem stageRefl_offs : (s.stageRefl rid).staging.offs = s.staging.offs := rfl
@[simp] theorem stageRefl_refl : (s.stageRefl rid).staging.refl = rid := rfl

@[simp] theorem present_active : (s.present w).active = s.active := rfl
@[simp] theorem present_staging : (s.present w).staging = s.staging := rfl
@[simp] theorem present_rsp : (s.present w).rsp = s.rsp := rfl
@[simp] theorem present_port : (s.present w).port = .command w :: s.port := rfl

variable {n : Nat} (g : Registry) (x : Active n) (f : Configuration n)

@[simp] theorem stepped_slots : (x.stepped g).slots = round g x.slots := rfl
@[simp] theorem stepped_refl : (x.stepped g).refl = x.refl := rfl
@[simp] theorem ofConfiguration_refl : (Active.ofConfiguration f).refl = f.refl := rfl
@[simp] theorem configuration_refl : x.configuration.refl = x.refl := rfl

@[simp] theorem ofConfiguration_slot (k : Nat) (h : k < n) :
    (Active.ofConfiguration f).slots[k] = ⟨f.types[k], f.offs[k], false⟩ := by
  simp [Active.ofConfiguration, Vector.get_eq_getElem]

@[simp] theorem configuration_type (k : Nat) (h : k < n) : x.configuration.types[k] = x.slots[k].type := by
  simp [Active.configuration, Vector.get_eq_getElem]

@[simp] theorem configuration_off (k : Nat) (h : k < n) : x.configuration.offs[k] = x.slots[k].offset := by
  simp [Active.configuration, Vector.get_eq_getElem]

end Sys2Proof.Machine
end

