-- ==== Sys2Proof/Laws/Construction.lean ====
section
/-! SUPPORT. What the validation of a configuration answers. -/

namespace Sys2Proof.Machine

open Sys2Proof

variable {n : Nat} (g : Registry)

/-- A slot passes exactly when its type is known and its offset is in 0..25 (R97). -/
theorem validateSlot_eq_none (i : Nat) (t : BitVec 4) (o : BitVec 5) :
    validateSlot g i t o = none ↔ 1 ≤ t.toNat ∧ t.toNat ≤ g.ntypes ∧ o.toNat ≤ 25 := by
  unfold validateSlot
  split
  · simp; omega
  · split
    · simp; omega
    · simp; omega

theorem validateRefl_eq_none (r : BitVec 4) : validateRefl g r = none ↔ r.toNat < g.nrefl := by
  unfold validateRefl
  split <;> simp <;> omega

/-- Validation passes exactly the legal configurations (R95, R97). -/
theorem validate_eq_none (c : Configuration n) : validate g c = none ↔ c.Legal g := by
  simp only [validate, Option.or_eq_none_iff, List.findSome?_eq_none_iff, List.mem_finRange, true_implies,
    validateSlot_eq_none, validateRefl_eq_none, Configuration.Legal]

/-- Validation fails with a configuration error (R97). -/
theorem validate_some {c : Configuration n} {e : Error} {info : Word} (h : validate g c = some (e, info)) :
    e = .cfgRotor ∨ e = .cfgOffset ∨ e = .cfgRefl := by
  rw [validate, Option.or_eq_some_iff] at h
  rcases h with h | ⟨-, h⟩
  · obtain ⟨i, -, hi⟩ := List.exists_of_findSome?_eq_some h
    unfold validateSlot at hi
    split at hi
    · simp only [Option.some.injEq, Prod.mk.injEq] at hi; exact .inl hi.1.symm
    · split at hi
      · simp only [Option.some.injEq, Prod.mk.injEq] at hi; exact .inr (.inl hi.1.symm)
      · cases hi
  · unfold validateRefl at h
    split at h
    · simp only [Option.some.injEq, Prod.mk.injEq] at h; exact .inr (.inr h.1.symm)
    · cases h

end Sys2Proof.Machine
end

