-- ==== Sys2Proof/Laws/Decode.lean ====
section
/-! SUPPORT. What the decoder's parts answer. -/

namespace Sys2Proof

/-- The check of the reserved bits answers the instruction it was given, or E_RSVD_BITS, and nothing else. -/
theorem checked_cases (fmt : Format) (w : Word) (i : Instr) :
    (fmt.reservedClear w = true ∧ checked fmt w i = .ok i) ∨
      (fmt.reservedClear w = false ∧ checked fmt w i = .error .rsvdBits) := by
  unfold checked
  cases h : fmt.reservedClear w <;> simp

/-- A checked word gives an instruction exactly when its reserved bits are clear. -/
theorem checked_eq_ok {fmt : Format} {w : Word} {i j : Instr} :
    checked fmt w i = .ok j ↔ fmt.reservedClear w = true ∧ i = j := by
  unfold checked
  cases fmt.reservedClear w <;> simp

theorem checked_ne_illegal (fmt : Format) (w : Word) (i : Instr) : checked fmt w i ≠ .error .illegalOp := by
  unfold checked
  cases fmt.reservedClear w <;> simp

/-- A concatenation as a number (R8). -/
theorem toNat_append_add {m n : Nat} (a : BitVec m) (b : BitVec n) :
    (a ++ b).toNat = a.toNat * 2 ^ n + b.toNat := by
  rw [BitVec.toNat_append, ← Nat.shiftLeft_add_eq_or_of_lt b.isLt, Nat.shiftLeft_eq]

/-- A field of a word as a number (R8). -/
theorem extractLsb_toNat_div (w : Word) (hi lo : Nat) :
    (w.extractLsb hi lo).toNat = w.toNat / 2 ^ lo % 2 ^ (hi - lo + 1) := by
  rw [BitVec.extractLsb_toNat, Nat.shiftRight_eq_div_pow]

/-- The opcode as a number (R41). -/
theorem opcodeOf_toNat (w : Word) : (opcodeOf w).toNat = w.toNat / 2 ^ 28 := by
  have := w.isLt
  rw [opcodeOf, extractLsb_toNat_div]; omega

/-- The inversion of the decoder: the opcode decides which check is made, and a reserved opcode is an error (R92). -/
theorem decode_cases (w : Word) :
    ((opcodeOf w).toNat = 0 ∧ decode w = checked .c w (.enc (w.extractLsb 7 0))) ∨
    ((opcodeOf w).toNat = 1 ∧
      decode w = checked .s w (.setslot (slotField w) (w.extractLsb 11 8) (w.extractLsb 4 0))) ∨
    ((opcodeOf w).toNat = 2 ∧ decode w = checked .f w (.setrefl (w.extractLsb 3 0))) ∨
    ((opcodeOf w).toNat = 3 ∧ decode w = checked .n w .commit) ∨
    ((opcodeOf w).toNat = 4 ∧ decode w = checked .q w (.rdslot (slotField w))) ∨
    ((opcodeOf w).toNat = 5 ∧ decode w = checked .n w .rdrefl) ∨
    (6 ≤ (opcodeOf w).toNat ∧ decode w = .error .illegalOp) := by
  unfold decode
  have := (opcodeOf w).isLt
  generalize hk : (opcodeOf w).toNat = k at *
  interval_cases k <;> simp

/-! The word of each command as a number (R42 to R45). -/

theorem encode_enc_toNat (ch : Byte) : (encode (.enc ch)).toNat = ch.toNat := by
  simp only [encode, toNat_append_add, BitVec.toNat_ofNat]; omega

theorem encode_setslot_toNat (slot type : BitVec 4) (off : BitVec 5) :
    (encode (.setslot slot type off)).toNat =
      1 * 2 ^ 28 + slot.toNat * 2 ^ 24 + type.toNat * 2 ^ 8 + off.toNat := by
  simp only [encode, toNat_append_add, BitVec.toNat_ofNat]; omega

theorem encode_setrefl_toNat (rid : BitVec 4) : (encode (.setrefl rid)).toNat = 2 * 2 ^ 28 + rid.toNat := by
  simp only [encode, toNat_append_add, BitVec.toNat_ofNat]; omega

theorem encode_commit_toNat : (encode .commit).toNat = 3 * 2 ^ 28 := by decide

theorem encode_rdslot_toNat (slot : BitVec 4) : (encode (.rdslot slot)).toNat = 4 * 2 ^ 28 + slot.toNat * 2 ^ 24 := by
  simp only [encode, toNat_append_add, BitVec.toNat_ofNat]; omega

theorem encode_rdrefl_toNat : (encode .rdrefl).toNat = 5 * 2 ^ 28 := by decide

end Sys2Proof
end

