-- ==== Sys2Proof/Laws/Operands.lean ====
section
/-! SUPPORT. The modular arithmetic and the operand conversions. -/

namespace Sys2Proof.Machine

open Sys2Proof

theorem add26_val (a b : Index) : (add26 a b).val = (a.val + b.val) % 26 := rfl

theorem sub26_val (a b : Index) : (sub26 a b).val = (26 + a.val - b.val) % 26 := rfl

/-- Subtracting an offset undoes adding it. -/
@[simp] theorem sub26_add26 (x o : Index) : sub26 (add26 x o) o = x := by
  ext; simp only [sub26_val, add26_val]; omega

/-- Adding an offset undoes subtracting it. -/
@[simp] theorem add26_sub26 (x o : Index) : add26 (sub26 x o) o = x := by
  ext; simp only [sub26_val, add26_val]; omega

theorem indexOf_val (o : BitVec 5) : (indexOf o).val = o.toNat % 26 := rfl

/-- An offset register of active state holds its index itself. -/
theorem indexOf_val_of_le {o : BitVec 5} (h : o.toNat ≤ 25) : (indexOf o).val = o.toNat := by
  rw [indexOf_val]; omega

@[simp] theorem offsetOf_toNat (i : Index) : (offsetOf i).toNat = i.val := by
  simp only [offsetOf, BitVec.toNat_ofNat]; omega

@[simp] theorem indexOf_offsetOf (i : Index) : indexOf (offsetOf i) = i := by
  ext; rw [indexOf_val, offsetOf_toNat]; omega

/-- One step of an offset register (R9, R68). -/
theorem nextOffset_toNat (o : BitVec 5) : (nextOffset o).toNat = (o.toNat % 26 + 1) % 26 := by
  rw [nextOffset, offsetOf_toNat, add26_val, indexOf_val]; rfl

/-- A step always moves the offset. -/
theorem nextOffset_ne (o : BitVec 5) : nextOffset o ≠ o := by
  intro h
  have := congrArg BitVec.toNat h
  rw [nextOffset_toNat] at this; omega

/-- An offset after a step is in 0..25 (R24). -/
theorem nextOffset_le (o : BitVec 5) : (nextOffset o).toNat ≤ 25 := by
  rw [nextOffset_toNat]; omega

/-- The output byte of an index, as a number: an uppercase letter. -/
theorem letterByte_toNat (i : Index) : (letterByte i).toNat = 0x41 + i.val := by
  simp only [letterByte, BitVec.toNat_ofNat]; omega

theorem isLetter_iff (c : Byte) :
    isLetter c = true ↔ (0x41 ≤ c.toNat ∧ c.toNat ≤ 0x5A) ∨ (0x61 ≤ c.toNat ∧ c.toNat ≤ 0x7A) := by
  simp [isLetter]

/-- The index of an uppercase letter. -/
theorem letterIndex_upper {c : Byte} {x : Index} (h : c.toNat = 0x41 + x.val) : letterIndex c = x := by
  have hx := x.isLt
  rw [letterIndex, if_pos (by omega)]
  ext; simp only [Fin.ofNat]; omega

/-- The index of a lowercase letter. -/
theorem letterIndex_lower {c : Byte} {x : Index} (h : c.toNat = 0x61 + x.val) : letterIndex c = x := by
  have hx := x.isLt
  rw [letterIndex, if_neg (by omega)]
  ext; simp only [Fin.ofNat]; omega

/-- The output letter of an index is read back as that index. -/
@[simp] theorem letterIndex_letterByte (i : Index) : letterIndex (letterByte i) = i :=
  letterIndex_upper (letterByte_toNat i)

theorem isLetter_letterByte (i : Index) : isLetter (letterByte i) = true := by
  have := i.isLt
  rw [isLetter_iff, letterByte_toNat]; omega

/-- A slot operand below the number of slots names that slot. -/
theorem slotOperand_of_lt {n : Nat} {slot : BitVec 4} (h : slot.toNat < n) :
    slotOperand slot = some (⟨slot.toNat, h⟩ : Fin n) := dif_pos h

/-- A slot operand of the number of slots or above names none. -/
theorem slotOperand_of_le {n : Nat} {slot : BitVec 4} (h : n ≤ slot.toNat) :
    (slotOperand slot : Option (Fin n)) = none := dif_neg (by omega)

/-- No error has code 0 or a reserved code (R104). -/
theorem errorCode_range (e : Error) : 1 ≤ (errorCode e).toNat ∧ (errorCode e).toNat ≤ 6 := by
  cases e <;> decide

end Sys2Proof.Machine
end

