-- ==== Sys2Proof/Laws/Stepping.lean ====
section
/-! SUPPORT. What `cycle`, the self-step and the carries do to each slot. -/

namespace Sys2Proof.Machine

open Sys2Proof

variable {n : Nat} (g : Registry)

@[simp] theorem cycled_type (s : Slot) : (s.cycled g).type = s.type := rfl

@[simp] theorem cycled_offset (s : Slot) : (s.cycled g).offset = nextOffset s.offset := rfl

@[simp] theorem cycled_pend (s : Slot) :
    (s.cycled g).pend = (s.pend || g.isNotch s.type (nextOffset s.offset)) := rfl

@[simp] theorem clearPend_type (s : Slot) : s.clearPend.type = s.type := rfl

@[simp] theorem clearPend_offset (s : Slot) : s.clearPend.offset = s.offset := rfl

@[simp] theorem clearPend_pend (s : Slot) : s.clearPend.pend = false := rfl

/-- `cycle(i)` cycles slot `i` and no other slot. -/
theorem cycle_get (i j : Nat) (v : Vector Slot n) (hj : j < n) :
    (cycle g i v)[j] = if i = j then v[j].cycled g else v[j] := by
  unfold cycle
  split <;> rename_i h
  · rw [Vector.getElem_set]
    split <;> rename_i hij
    · subst hij; rfl
    · rfl
  · rw [if_neg (by omega)]

/-- Step 2 cycles slot 1 if it stands on its notch, and no other slot. -/
theorem selfStep_get (j : Nat) (v : Vector Slot n) (hj : j < n) :
    (selfStep g v)[j] = if j = 1 ∧ v[j].onNotch g = true then v[j].cycled g else v[j] := by
  by_cases h : 1 < n
  · by_cases hn : v[1].onNotch g = true
    · have hs : selfStep g v = cycle g 1 v := by simp only [selfStep, h, hn, dite_true, if_true]
      simp only [hs, cycle_get]
      by_cases hj1 : j = 1
      · subst hj1; simp [hn]
      · simp [hj1, Ne.symm hj1]
    · have hs : selfStep g v = v := by simp only [selfStep, h, hn, dite_true]; rfl
      simp only [hs]
      by_cases hj1 : j = 1
      · subst hj1; simp [hn]
      · simp [hj1]
  · have hs : selfStep g v = v := by simp only [selfStep, h, dite_false]
    simp only [hs]
    rw [if_neg]
    intro hc
    omega

/-- A carry at index `i` with a set flag clears it and cycles slot `i + 1`. -/
theorem carry_get_of_pend (i j : Nat) (v : Vector Slot n) (hi : i + 1 < n) (hj : j < n) (hp : v[i].pend = true) :
    (carry g v i)[j] = if i + 1 = j then v[j].cycled g else if i = j then v[j].clearPend else v[j] := by
  rw [carry, dif_pos hi, if_pos hp, cycle_get]
  have hs : (v.set i v[i].clearPend)[j] = if i = j then v[j].clearPend else v[j] := by
    rw [Vector.getElem_set]
    split <;> rename_i hij
    · subst hij; rfl
    · rfl
  rw [hs]
  split <;> rename_i h1
  · rw [if_neg (by omega)]
  · rfl

/-- A carry at an index whose flag is clear changes nothing. -/
theorem carry_of_clear (i : Nat) (v : Vector Slot n) (hi : i + 1 < n) (hp : v[i].pend = false) :
    carry g v i = v := by
  rw [carry, dif_pos hi, if_neg (by simp [hp])]

/-- A carry at index `i`, said of each slot. -/
theorem carry_get (i j : Nat) (v : Vector Slot n) (hi : i + 1 < n) (hj : j < n) :
    (carry g v i)[j] =
      if v[i].pend = true then
        (if i + 1 = j then v[j].cycled g else if i = j then v[j].clearPend else v[j])
      else v[j] := by
  split <;> rename_i hp
  · exact carry_get_of_pend g i j v hi hj hp
  · rw [carry_of_clear g i v hi (by simpa using hp)]

/-- Slot `i` as the carry at index `i` finds it: cycled exactly if the slot before it was found with its flag set. -/
def arrived (g : Registry) (v : Vector Slot n) : (i : Nat) → i < n → Slot
  | 0, h     => v[0]
  | i + 1, h => if (arrived g v i (by omega)).pend then v[i + 1].cycled g else v[i + 1]

@[simp] theorem arrived_zero (v : Vector Slot n) (h : 0 < n) : arrived g v 0 h = v[0] := rfl

theorem arrived_succ (v : Vector Slot n) (i : Nat) (h : i + 1 < n) :
    arrived g v (i + 1) h = if (arrived g v i (by omega)).pend = true then v[i + 1].cycled g else v[i + 1] := rfl

@[simp] theorem arrived_type (v : Vector Slot n) (i : Nat) (h : i < n) : (arrived g v i h).type = v[i].type := by
  cases i with
  | zero => rfl
  | succ i => rw [arrived_succ]; split <;> rfl

/-- A flag set before the carries is still set when its slot's turn comes. -/
theorem arrived_pend_of_pend (v : Vector Slot n) (i : Nat) (h : i < n) (hp : v[i].pend = true) :
    (arrived g v i h).pend = true := by
  cases i with
  | zero => exact hp
  | succ i => rw [arrived_succ]; split <;> simp [hp]

/-- Step 3 as far as index `i`: the slots behind it are as they arrived with their flags cleared, slot `i` is as it
arrived, and the slots before it are untouched. -/
theorem carries_get (v : Vector Slot n) (i : Nat) (hi : i < n) (j : Nat) (hj : j < n) :
    ((List.range i).foldl (carry g) v)[j] =
      if j < i then (arrived g v j hj).clearPend else if j = i then arrived g v j hj else v[j] := by
  induction i generalizing j with
  | zero =>
    cases j with
    | zero => simp
    | succ j => simp
  | succ i ih =>
    have hi' : i < n := by omega
    have hpend : ((List.range i).foldl (carry g) v)[i].pend = (arrived g v i hi').pend := by
      rw [ih hi' i hi', if_neg (by omega), if_pos rfl]
    rw [List.range_succ, List.foldl_append, List.foldl_cons, List.foldl_nil, carry_get g i j _ hi hj, ih hi' j hj, hpend]
    rcases Nat.lt_trichotomy j i with hlt | rfl | hgt
    · simp [hlt, show j < i + 1 by omega, show i + 1 ≠ j by omega, show i ≠ j by omega]
    · cases hp : (arrived g v j hj).pend with
      | true => simp
      | false =>
        simp only [Bool.false_eq_true, if_false, Nat.lt_irrefl, if_true, show j < j + 1 by omega]
        exact (by rw [Slot.clearPend, ← hp] : arrived g v j hj = (arrived g v j hj).clearPend)
    · by_cases hji : j = i + 1
      · subst hji
        simp [arrived_succ, show ¬ i + 1 < i by omega]
      · simp [show ¬ j < i by omega, show ¬ j = i by omega, show ¬ j < i + 1 by omega, hji,
          show i + 1 ≠ j by omega, show i ≠ j by omega]

/-- Step 3 said of each slot: as it arrived, with its flag cleared unless it is the slowest. -/
theorem carryAll_get (v : Vector Slot n) (j : Nat) (hj : j < n) :
    (carryAll g v)[j] = if j + 1 < n then (arrived g v j hj).clearPend else arrived g v j hj := by
  have hn : n - 1 < n := by omega
  rw [show carryAll g v = (List.range (n - 1)).foldl (carry g) v from rfl, carries_get g v (n - 1) hn j hj]
  by_cases h : j + 1 < n
  · rw [if_pos (by omega), if_pos h]
  · rw [if_neg (by omega), if_pos (by omega), if_neg h]

/-- The slots after steps 1 and 2 of the round. -/
theorem stepped_get (v : Vector Slot n) (j : Nat) (hj : j < n) :
    (selfStep g (cycle g 0 v))[j] =
      if j = 0 then v[j].cycled g
      else if j = 1 ∧ v[j].onNotch g = true then v[j].cycled g else v[j] := by
  rw [selfStep_get, cycle_get]
  by_cases h0 : j = 0
  · subst h0; simp
  · rw [if_neg (Ne.symm h0), if_neg h0]

/-- The round said of each slot. -/
theorem round_get (v : Vector Slot n) (j : Nat) (hj : j < n) :
    (round g v)[j] =
      if j + 1 < n then (arrived g (selfStep g (cycle g 0 v)) j hj).clearPend
      else arrived g (selfStep g (cycle g 0 v)) j hj :=
  carryAll_get g _ j hj

/-- The offset of a slot after the round is the offset it arrived with at step 3's visit. -/
theorem round_offset (v : Vector Slot n) (j : Nat) (hj : j < n) :
    (round g v)[j].offset = (arrived g (selfStep g (cycle g 0 v)) j hj).offset := by
  rw [round_get]; split <;> rfl

/-- The round changes no type. -/
@[simp] theorem round_type (v : Vector Slot n) (j : Nat) (hj : j < n) : (round g v)[j].type = v[j].type := by
  have h1 : (selfStep g (cycle g 0 v))[j].type = v[j].type := by
    rw [stepped_get]; split
    · rfl
    · split <;> rfl
  rw [round_get]; split <;> simp [h1]

end Sys2Proof.Machine
end

