-- ==== Sys2Proof/Laws/Exec.lean ====
section
/-! SUPPORT. What each command can answer, said once, and that a round keeps the active configuration legal. -/

namespace Sys2Proof.Machine

open Sys2Proof

variable (s : State)

/-- ENC of a letter at a legal active configuration (R93). -/
theorem exec_enc_letter {ch : Byte} (hl : isLetter ch = true) (h : s.active.Legal Config.registry) :
    exec (.enc ch) s =
      .next ((s.activate (s.active.stepped Config.registry)).complete
        (zext32 ((s.active.stepped Config.registry).encipher Config.registry ch))) := by
  simp only [exec, execEnc, if_pos hl, if_pos h]

/-- ENC of a letter at an illegal active configuration stops (notes/assumptions/4.md). -/
theorem exec_enc_illegal {ch : Byte} (hl : isLetter ch = true) (h : ¬ s.active.Legal Config.registry) :
    exec (.enc ch) s = .fault .illegalActiveConfiguration := by
  simp only [exec, execEnc, if_pos hl, if_neg h]

/-- ENC of a byte that is no letter (R93). -/
theorem exec_enc_other {ch : Byte} (hl : isLetter ch = false) :
    exec (.enc ch) s = .next (s.complete (zext32 ch)) := by
  simp only [exec, execEnc, hl]; rfl

/-- SETSLOT of a slot there is (R94). -/
theorem exec_setslot_of_lt {slot type : BitVec 4} {off : BitVec 5} (h : slot.toNat < Config.NROT) :
    exec (.setslot slot type off) s = .next ((s.stageSlot ⟨slot.toNat, h⟩ type off).complete 0) := by
  simp only [exec, execSetslot, slotOperand_of_lt h]

/-- SETSLOT of a slot there is not (R94, R108). -/
theorem exec_setslot_of_le {slot type : BitVec 4} {off : BitVec 5} (h : Config.NROT ≤ slot.toNat) :
    exec (.setslot slot type off) s = .next (s.raise .slot (zext32 slot)) := by
  simp only [exec, execSetslot, slotOperand_of_le h]

/-- COMMIT of a legal configuration (R99). -/
theorem exec_commit_legal (h : s.staging.Legal Config.registry) :
    exec .commit s = .next ((s.activate (Active.ofConfiguration s.staging)).complete 0) := by
  simp only [exec, execCommit, (validate_eq_none _ _).mpr h]

/-- COMMIT of a configuration whose validation fails (R97, R99). -/
theorem exec_commit_failure {e : Error} {info : Word} (h : validate Config.registry s.staging = some (e, info)) :
    exec .commit s = .next (s.raise e info) := by
  simp only [exec, execCommit, h]

/-- RDSLOT of a slot there is (R101). -/
theorem exec_rdslot_of_lt {slot : BitVec 4} (h : slot.toNat < Config.NROT) :
    exec (.rdslot slot) s = .next (s.complete (s.active.slots.get ⟨slot.toNat, h⟩).word) := by
  simp only [exec, execRdslot, slotOperand_of_lt h]

/-- RDSLOT of a slot there is not (R101, R108). -/
theorem exec_rdslot_of_le {slot : BitVec 4} (h : Config.NROT ≤ slot.toNat) :
    exec (.rdslot slot) s = .next (s.raise .slot (zext32 slot)) := by
  simp only [exec, execRdslot, slotOperand_of_le h]

/-- The inversion of `exec`: every way a command can go. -/
theorem exec_cases (i : Instr) :
    (∃ ch, i = .enc ch ∧ isLetter ch = false ∧ exec i s = .next (s.complete (zext32 ch))) ∨
    (∃ ch, i = .enc ch ∧ isLetter ch = true ∧ s.active.Legal Config.registry ∧
      exec i s = .next ((s.activate (s.active.stepped Config.registry)).complete
        (zext32 ((s.active.stepped Config.registry).encipher Config.registry ch)))) ∨
    (∃ ch, i = .enc ch ∧ isLetter ch = true ∧ ¬ s.active.Legal Config.registry ∧
      exec i s = .fault .illegalActiveConfiguration) ∨
    (∃ slot type off, ∃ h : slot.toNat < Config.NROT, i = .setslot slot type off ∧
      exec i s = .next ((s.stageSlot ⟨slot.toNat, h⟩ type off).complete 0)) ∨
    (∃ slot type off, Config.NROT ≤ slot.toNat ∧ i = .setslot slot type off ∧
      exec i s = .next (s.raise .slot (zext32 slot))) ∨
    (∃ rid, i = .setrefl rid ∧ exec i s = .next ((s.stageRefl rid).complete 0)) ∨
    (i = .commit ∧ s.staging.Legal Config.registry ∧
      exec i s = .next ((s.activate (Active.ofConfiguration s.staging)).complete 0)) ∨
    (∃ e info, i = .commit ∧ ¬ s.staging.Legal Config.registry ∧ (e = .cfgRotor ∨ e = .cfgOffset ∨ e = .cfgRefl) ∧
      exec i s = .next (s.raise e info)) ∨
    (∃ slot, ∃ h : slot.toNat < Config.NROT, i = .rdslot slot ∧
      exec i s = .next (s.complete (s.active.slots.get ⟨slot.toNat, h⟩).word)) ∨
    (∃ slot, Config.NROT ≤ slot.toNat ∧ i = .rdslot slot ∧ exec i s = .next (s.raise .slot (zext32 slot))) ∨
    (i = .rdrefl ∧ exec i s = .next (s.complete s.active.reflWord)) := by
  cases i with
  | enc ch =>
    cases hl : isLetter ch with
    | false => exact .inl ⟨ch, rfl, hl, exec_enc_other s hl⟩
    | true =>
      by_cases h : s.active.Legal Config.registry
      · exact .inr (.inl ⟨ch, rfl, hl, h, exec_enc_letter s hl h⟩)
      · exact .inr (.inr (.inl ⟨ch, rfl, hl, h, exec_enc_illegal s hl h⟩))
  | setslot slot type off =>
    by_cases h : slot.toNat < Config.NROT
    · exact .inr (.inr (.inr (.inl ⟨slot, type, off, h, rfl, exec_setslot_of_lt s h⟩)))
    · exact .inr (.inr (.inr (.inr (.inl ⟨slot, type, off, by omega, rfl, exec_setslot_of_le s (by omega)⟩))))
  | setrefl rid => exact .inr (.inr (.inr (.inr (.inr (.inl ⟨rid, rfl, rfl⟩)))))
  | commit =>
    cases hv : validate Config.registry s.staging with
    | none =>
      have h := (validate_eq_none _ _).mp hv
      exact .inr (.inr (.inr (.inr (.inr (.inr (.inl ⟨rfl, h, exec_commit_legal s h⟩))))))
    | some f =>
      have h : ¬ s.staging.Legal Config.registry := fun h => by
        rw [(validate_eq_none _ _).mpr h] at hv; cases hv
      exact .inr (.inr (.inr (.inr (.inr (.inr (.inr (.inl
        ⟨f.1, f.2, rfl, h, validate_some _ hv, exec_commit_failure s hv⟩)))))))
  | rdslot slot =>
    by_cases h : slot.toNat < Config.NROT
    · exact .inr (.inr (.inr (.inr (.inr (.inr (.inr (.inr (.inl ⟨slot, h, rfl, exec_rdslot_of_lt s h⟩))))))))
    · exact .inr (.inr (.inr (.inr (.inr (.inr (.inr (.inr (.inr (.inl
        ⟨slot, by omega, rfl, exec_rdslot_of_le s (by omega)⟩)))))))))
  | rdrefl => exact .inr (.inr (.inr (.inr (.inr (.inr (.inr (.inr (.inr (.inr ⟨rfl, rfl⟩)))))))))

/-- A round keeps a legal active configuration legal (R23, R24). -/
theorem stepped_legal {n : Nat} {g : Registry} {a : Active n} (h : a.Legal g) : (a.stepped g).Legal g := by
  have hoff : ∀ j (hj : j < n), (selfStep g (cycle g 0 a.slots))[j].offset.toNat ≤ 25 := by
    intro j hj
    have hj' := h.1 ⟨j, hj⟩
    simp only [Vector.get_eq_getElem, configuration_off] at hj'
    rw [stepped_get]
    split
    · exact nextOffset_le _
    · split
      · exact nextOffset_le _
      · exact hj'.2.2
  refine ⟨fun ⟨i, hi⟩ => ?_, h.2⟩
  have ht := h.1 ⟨i, hi⟩
  simp only [Vector.get_eq_getElem, configuration_type, configuration_off, stepped_slots, round_type] at ht ⊢
  refine ⟨ht.1, ht.2.1, ?_⟩
  rw [round_offset]
  cases i with
  | zero => exact hoff 0 hi
  | succ i =>
    rw [arrived_succ]
    split
    · exact nextOffset_le _
    · exact hoff _ hi

/-- The machine a legal configuration makes is legal (R23). -/
theorem ofConfiguration_legal {n : Nat} {g : Registry} {c : Configuration n} (h : c.Legal g) :
    (Active.ofConfiguration c).Legal g := by
  refine ⟨fun ⟨i, hi⟩ => ?_, h.2⟩
  have := h.1 ⟨i, hi⟩
  simpa [Vector.get_eq_getElem] using this

end Sys2Proof.Machine
end

