-- ==== Sys2Proof/Laws/PerInstr.lean ====
section
/-! SUPPORT. Statements made of every instruction, one lemma per constructor. Family FitsRow: the word of an instruction
matches the fixed bits of its row of the opcode table (spec/30_encoding.md R47). -/

namespace Sys2Proof.Laws.FitsRow

open Sys2Proof

/-- The encoding of `i` fits the row of `i`. -/
def Statement (i : Instr) : Prop := i.row.fits (encode i) = true

/-- A word fits a row when it agrees with it bit by bit. -/
theorem fits_of_bits {r : OpcodeRow} {w : Word}
    (h : ∀ k < 32, (w.getLsbD k && r.mask.getLsbD k) = r.bits.getLsbD k) : r.fits w = true := by
  rw [OpcodeRow.fits, beq_iff_eq]
  exact BitVec.eq_of_getLsbD_eq fun k hk => by rw [BitVec.getLsbD_and]; exact h k hk

theorem enc (ch : Byte) : Statement (.enc ch) :=
  fits_of_bits fun k hk => by
    have hb : (encode (.enc ch)).getLsbD k = BitVec.getLsbD (w := 4 + 20 + 8) (0x0#4 ++ 0#20 ++ ch) k := rfl
    rw [hb, BitVec.getLsbD_append, BitVec.getLsbD_append]
    interval_cases k <;> simp [Instr.row]

theorem setslot (slot type : BitVec 4) (off : BitVec 5) : Statement (.setslot slot type off) :=
  fits_of_bits fun k hk => by
    have hb : (encode (.setslot slot type off)).getLsbD k =
        BitVec.getLsbD (w := 4 + 4 + 12 + 4 + 3 + 5) (0x1#4 ++ slot ++ 0#12 ++ type ++ 0#3 ++ off) k := rfl
    rw [hb, BitVec.getLsbD_append, BitVec.getLsbD_append, BitVec.getLsbD_append, BitVec.getLsbD_append,
      BitVec.getLsbD_append]
    interval_cases k <;> simp [Instr.row]

theorem setrefl (rid : BitVec 4) : Statement (.setrefl rid) :=
  fits_of_bits fun k hk => by
    have hb : (encode (.setrefl rid)).getLsbD k = BitVec.getLsbD (w := 4 + 24 + 4) (0x2#4 ++ 0#24 ++ rid) k := rfl
    rw [hb, BitVec.getLsbD_append, BitVec.getLsbD_append]
    interval_cases k <;> simp [Instr.row]

theorem commit : Statement .commit := by unfold Statement; decide

theorem rdslot (slot : BitVec 4) : Statement (.rdslot slot) :=
  fits_of_bits fun k hk => by
    have hb : (encode (.rdslot slot)).getLsbD k = BitVec.getLsbD (w := 4 + 4 + 24) (0x4#4 ++ slot ++ 0#24) k := rfl
    rw [hb, BitVec.getLsbD_append, BitVec.getLsbD_append]
    interval_cases k <;> simp [Instr.row]

theorem rdrefl : Statement .rdrefl := by unfold Statement; decide

end Sys2Proof.Laws.FitsRow
end

