-- ==== Sys2Proof/Laws/Port.lean ====
section
/-! SUPPORT. What one edge can be: an idle one, a reset, or the acceptance of a word. -/

namespace Sys2Proof.Machine

open Sys2Proof

variable (s : State) (w : Word) (rest : List PortInput)

theorem step_of_empty (h : s.port = []) : step s = .next s.idle := by
  unfold step nextEdge; rw [h]

theorem step_of_cons {p : PortInput} (h : s.port = p :: rest) : step s = clockEdge p { s with port := rest } := by
  unfold step nextEdge; rw [h]

/-- The inversion of an edge: every way a step can go. -/
theorem step_cases :
    (s.port = [] ∧ step s = .next s.idle) ∨
      ∃ p rest, s.port = p :: rest ∧
        ((p.rst = true ∧ step s = .next { State.reset with port := rest }) ∨
          (p.rst = false ∧ p.cmdValid = false ∧ step s = .next { s.idle with port := rest }) ∨
          (p.rst = false ∧ p.cmdValid = true ∧ step s = accept p.cmd { s with port := rest })) := by
  cases hp : s.port with
  | nil => exact .inl ⟨rfl, step_of_empty s hp⟩
  | cons p rest =>
    refine .inr ⟨p, rest, rfl, ?_⟩
    rw [step_of_cons s rest hp]
    unfold clockEdge
    cases hr : p.rst with
    | true => exact .inl ⟨rfl, rfl⟩
    | false =>
      cases hv : p.cmdValid with
      | true => exact .inr (.inr ⟨rfl, rfl, rfl⟩)
      | false => exact .inr (.inl ⟨rfl, rfl, rfl⟩)

theorem accept_of_ok {i : Instr} (h : decode w = .ok i) : accept w s = exec i s := by
  unfold accept; rw [h]

theorem accept_of_error {e : Error} (h : decode w = .error e) : accept w s = .next (s.raise e 0) := by
  unfold accept; rw [h]

/-- A word presented at the next edge is accepted there, after everything it stands before. -/
theorem step_present : step (s.present w) = accept w s := rfl

end Sys2Proof.Machine
end

