-- ==== Sys2Proof/Laws/Run.lean ====
section
/-! SUPPORT. Runs of the machine, one edge at a time. -/

namespace Sys2Proof.Machine

open Sys2Proof

/-- A run of any machine whose first step answers `t` goes on from `t`. -/
theorem core_run_succ (M : Host.Core) (k : Nat) {s t : M.State} (h : M.step s = .next t) :
    M.run (k + 1) s = M.run k t := by
  simp only [Host.Core.run, h]

/-- A run whose first edge answers `t` goes on from `t`. -/
theorem run_succ_of_next (k : Nat) {s t : State} (h : step s = .next t) :
    Host.Core.run core (k + 1) s = Host.Core.run core k t :=
  core_run_succ core k h

end Sys2Proof.Machine
end

