-- ==== Sys2Proof/Laws/Tables.lean ====
section
/-! SUPPORT. What the look-ups of a legal registry return. -/

namespace Sys2Proof

/-- Searching a bijective table finds the position that holds the symbol (R29). -/
theorem Table.get_positionOf {w : Table} (h : w.Bijective) (j : Index) : w.get (w.positionOf j) = j := by
  obtain ⟨i, hi⟩ := (Finite.injective_iff_surjective (f := fun i : Index => w.get i)).mp (fun a b => h a b) j
  cases hf : (List.finRange 26).find? fun i => w.get i == j with
  | none => exact absurd (beq_iff_eq.mpr hi) (by simpa using List.find?_eq_none.mp hf i (List.mem_finRange i))
  | some k =>
    have hk : w.positionOf j = k := by simp only [Table.positionOf, hf, Option.getD_some]
    rw [hk]
    simpa using List.find?_some hf

/-- Searching a bijective table for an entry gives back its position (R29). -/
theorem Table.positionOf_get {w : Table} (h : w.Bijective) (i : Index) : w.positionOf (w.get i) = i :=
  h _ _ (Table.get_positionOf h _)

/-- A known rotor-type identifier names a row of the registry (R55). -/
theorem Registry.rotor?_of_known {g : Registry} {t : BitVec 4} (h₁ : 1 ≤ t.toNat) (h₂ : t.toNat ≤ g.ntypes) :
    g.rotor? t = some (g.rotors[t.toNat - 1]'(by omega)) := by
  have ht : t ≠ 0 := fun h => by simp [h] at h₁
  rw [Registry.rotor?, if_neg ht]
  exact getElem?_pos ..

/-- In a legal registry the wiring of a known rotor type is a bijection (R62 (a)). -/
theorem Registry.wiring_bijective {g : Registry} (hg : g.Legal) {t : BitVec 4} (h₁ : 1 ≤ t.toNat)
    (h₂ : t.toNat ≤ g.ntypes) : (g.wiring t).Bijective := by
  rw [Registry.wiring, Registry.rotor?_of_known h₁ h₂]
  exact (hg.rotors ⟨t.toNat - 1, by omega⟩).1

/-- In a legal registry a known reflector is an involution with no fixed point (R62 (c)). -/
theorem Registry.reflector_reflecting {g : Registry} (hg : g.Legal) {r : BitVec 4} (h : r.toNat < g.nrefl) :
    (g.reflector r).Reflecting := by
  rw [Registry.reflector, getElem?_pos g.reflectors r.toNat h]
  exact hg.reflectors ⟨r.toNat, h⟩

end Sys2Proof
end

