-- ==== Sys2Proof/Tests/Slice0.lean ====
section
/-! SUPPORT. Tests against the spec's own vectors (spec/95_test_vectors.md V1 to V37, P1 to P5) and tables, the refusals
of the well-formedness checks, and for every statement with hypotheses a witness that meets them. -/

namespace Sys2Proof.Tests

open Sys2Proof Sys2Proof.Machine

/-! ## Well-formedness: one ill-formed term for each check -/

theorem test_refuses_char_256 : (Source.enc 256).WellFormed = false := by decide
theorem test_refuses_slot_16 : (Source.setslot 16 1 0).WellFormed = false := by decide
theorem test_refuses_type_16 : (Source.setslot 0 16 0).WellFormed = false := by decide
theorem test_refuses_off_32 : (Source.setslot 0 1 32).WellFormed = false := by decide
theorem test_refuses_rid_16 : (Source.setrefl 16).WellFormed = false := by decide
theorem test_refuses_read_slot_16 : (Source.rdslot 16).WellFormed = false := by decide
theorem test_refuses_config_types_short : (Source.config [1, 2] [0, 0, 0] 1).WellFormed = false := by decide
theorem test_refuses_config_offs_long : (Source.config [1, 2, 3] [0, 0, 0, 0] 1).WellFormed = false := by decide
theorem test_refuses_config_type_16 : (Source.config [1, 16, 3] [0, 0, 0] 1).WellFormed = false := by decide
theorem test_refuses_config_off_32 : (Source.config [1, 2, 3] [0, 0, 32] 1).WellFormed = false := by decide
theorem test_refuses_config_refl_16 : (Source.config [1, 2, 3] [0, 0, 0] 16).WellFormed = false := by decide
theorem test_refuses_text_256 : (Source.encs [0x41, 256]).WellFormed = false := by decide
theorem test_accepts_extremes :
    [Source.enc 255, .setslot 15 15 31, .setrefl 15, .rdslot 15, .config [15, 0, 8] [31, 0, 25] 15,
      .encs [0, 255]].all Source.WellFormed = true := by decide

/-- R62 (a): a table with a repeated output. -/
theorem test_refuses_repeated_output : ¬ Table.Bijective (Config.reflectorA.set 0 (1 : Index)) := by decide
/-- R62 (b): no notch, and three. -/
theorem test_refuses_notch_counts :
    ¬ (⟨absentTable, notchMask []⟩ : RotorType).Valid ∧ ¬ (⟨absentTable, notchMask [0, 1, 2]⟩ : RotorType).Valid := by
  decide
/-- R62 (c): a fixed point, and no involution. -/
theorem test_refuses_fixed_point : ¬ Table.Reflecting absentTable := by decide
theorem test_refuses_no_involution : ¬ Table.Reflecting Config.rotorI.wiring := by decide
/-- R95: a type of 0, a type above NTYPES, an offset of 26, an unknown reflector. -/
theorem test_refuses_configurations :
    ¬ (⟨#v[0], #v[0], 0⟩ : Configuration 1).Legal Config.registry ∧
    ¬ (⟨#v[9], #v[0], 0⟩ : Configuration 1).Legal Config.registry ∧
    ¬ (⟨#v[1], #v[26], 0⟩ : Configuration 1).Legal Config.registry ∧
    ¬ (⟨#v[1], #v[25], 3⟩ : Configuration 1).Legal Config.registry := by decide
/-- R6: NTYPES and NREFL of 0. -/
theorem test_refuses_empty_registry : ¬ (⟨0, 0, #v[], #v[]⟩ : Registry).Legal :=
  fun h => absurd h.ntypes_range.1 (by decide)
theorem test_refuses_no_reflector : ¬ (⟨1, 0, #v[Config.rotorI], #v[]⟩ : Registry).Legal :=
  fun h => absurd h.nrefl_range.1 (by decide)
/-- R6: NTYPES and NREFL above their ranges. -/
theorem test_refuses_sixteen_types :
    ¬ (⟨16, 1, Vector.ofFn fun _ => Config.rotorI, #v[Config.reflectorA]⟩ : Registry).Legal :=
  fun h => absurd h.ntypes_range.2 (by decide)
theorem test_refuses_seventeen_reflectors :
    ¬ (⟨1, 17, #v[Config.rotorI], Vector.ofFn fun _ => Config.reflectorA⟩ : Registry).Legal :=
  fun h => absurd h.nrefl_range.2 (by decide)
/-- R6: no slot, and 17. -/
theorem test_refuses_no_slot : ¬ ParametersLegal 0 Config.registry ⟨#v[], #v[], 1⟩ :=
  fun h => absurd h.nrot_range.1 (by decide)
theorem test_refuses_seventeen_slots (c : Configuration 17) : ¬ ParametersLegal 17 Config.registry c :=
  fun h => absurd h.nrot_range.2 (by decide)

/-! ## The tables, against the letters of R58 and R60 -/

/-- A table as the letters the spec prints. -/
def lettersOf (w : Table) : List Char := w.toList.map fun i => Char.ofNat (0x41 + i.val)

/-- `INV[t]` as the letters the spec prints. -/
def inverseLetters (t : BitVec 4) : List Char :=
  (List.finRange 26).map fun j => Char.ofNat (0x41 + (Config.registry.inv t j).val)

theorem test_wiring_letters :
    [Config.rotorI, Config.rotorII, Config.rotorIII, Config.rotorIV, Config.rotorV, Config.rotorVI, Config.rotorVII,
        Config.rotorVIII].map (fun r => String.ofList (lettersOf r.wiring)) =
      ["EKMFLGDQVZNTOWYHXUSPAIBRCJ", "AJDKSIRUXBLHWTMCQGZNPYFVOE", "BDFHJLCPRTXVZNYEIWGAKMUSQO",
        "ESOVPZJAYQUIRHXLNFTGKDCMWB", "VZBRGITYUPSDNHLXAWMKQCEJFO", "JPGVOUMFYQBENHZRDKASXLICTW",
        "NZJHGRCXMYSWBOUFAIVLPEKQDT", "FKQHTLXOCBJSPDZRAMEWNIUYGV"] := by decide

theorem test_reflector_letters :
    [Config.reflectorA, Config.reflectorB, Config.reflectorC].map (fun r => String.ofList (lettersOf r)) =
      ["EJMZALYXVBWFCRQUONTSPIKHGD", "YRUHQSLDPXNGOKMIEBFZCWVJAT", "FVPJIAOYEDRZXWGCTKUQSBNMHL"] := by decide

theorem test_inverse_letters :
    [1, 2, 3, 4, 5, 6, 7, 8].map (fun t => String.ofList (inverseLetters t)) =
      ["UWYGADFPVZBECKMTHXSLRINQOJ", "AJPCZWRLFBDKOTYUQGENHXMIVS", "TAGBPCSDQEUFVNZHYIXJWLRKOM",
        "HZWVARTNLGUPXQCEJMBSKDYOIF", "QCVLWYENFXTOSMZJUDKGIARPHB", "SKXQLHCNWARVGMEBJPTYFDZUIO",
        "QMGYVPEDRCWTIANUXFKZOSLHJB", "QJINSAYDVKBFRUHMCPLEWZTGXO"] := by decide

/-! ## Decoding: words written out bit by bit from R42 to R45 -/

theorem test_decode_enc : decode 0b00000000000000000000000001000001 = .ok (.enc 0x41) := by rfl
theorem test_decode_enc_high_byte : decode 0b00000000000000000000000011000001 = .ok (.enc 0xC1) := by rfl
theorem test_decode_setslot : decode 0b00010001000000000000001000000100 = .ok (.setslot 1 2 4) := by rfl
theorem test_decode_setslot_extremes : decode 0b00011111000000000000111100011111 = .ok (.setslot 15 15 31) := by rfl
theorem test_decode_setrefl : decode 0b00100000000000000000000000000001 = .ok (.setrefl 1) := by rfl
theorem test_decode_commit : decode 0b00110000000000000000000000000000 = .ok .commit := by rfl
theorem test_decode_rdslot : decode 0b01000001000000000000000000000000 = .ok (.rdslot 1) := by rfl
theorem test_decode_rdrefl : decode 0b01010000000000000000000000000000 = .ok .rdrefl := by rfl
/-- V27, V28, V37. -/
theorem test_decode_reserved :
    decode 0x00000141 = .error .rsvdBits ∧ decode 0x70000000 = .error .illegalOp ∧
      decode 0x30000001 = .error .rsvdBits ∧ decode 0xF0000141 = .error .illegalOp := ⟨rfl, rfl, rfl, rfl⟩
theorem test_table_rows_disjoint :
    opcodeTable.Pairwise fun r r' => (r.mask &&& r'.mask) &&& (r.bits ^^^ r'.bits) ≠ 0 := by decide

/-! ## The assembler (R52, R53, P2) -/

theorem test_assemble_comment : assemble ['C', 'O', 'M', 'M', 'I', 'T', ' ', ';', ' ', '\''] = some [0x30000000] := by
  decide
theorem test_assemble_hex : assemble ['E', 'N', 'C', ' ', '0', 'x', '4', '1'] = some [0x41] := by decide
/-- The words of P2, from CONFIG (R53). -/
theorem test_assemble_config :
    assemble ['C', 'O', 'N', 'F', 'I', 'G', ' ', '(', 'I', 'I', 'I', ',', ' ', 'I', 'I', ',', ' ', 'I', ')', ',', ' ',
        '(', 'U', ',', ' ', 'D', ',', ' ', 'A', ')', ',', ' ', 'B'] =
      some [0x10000314, 0x11000203, 0x12000100, 0x20000001, 0x30000000] := by decide
theorem test_assemble_encs : assemble ['E', 'N', 'C', 'S', ' ', '"', 'h', ',', '!', '"'] = some [0x68, 0x2C, 0x21] := by
  decide
theorem test_assemble_refuses : assemble ['R', 'D', 'S', 'L', 'O', 'T', ' ', '1', '6'] = none := by decide

/-! ## The round: types, offsets and flags of V8 to V20 and of 90_conflicts.md C1 -/

/-- Slots from types, offsets and flags, fast to slow. -/
def slotsOf {n : Nat} (types : Vector (BitVec 4) n) (offs : Vector (BitVec 5) n) (pends : Vector Bool n) :
    Vector Slot n :=
  Vector.ofFn fun i => ⟨types.get i, offs.get i, pends.get i⟩

/-- Offsets and flags after a round of the reference registry. -/
def roundOf {n : Nat} (types : Vector (BitVec 4) n) (offs : Vector (BitVec 5) n) (pends : Vector Bool n) :
    List (Nat × Bool) :=
  (round Config.registry (slotsOf types offs pends)).toList.map fun s => (s.offset.toNat, s.pend)

theorem test_V8 : roundOf #v[1] #v[15] #v[false] = [(16, true)] := by decide
theorem test_V9 : roundOf #v[5] #v[25] #v[true] = [(0, true)] := by decide
theorem test_V10 : roundOf #v[3, 2, 1] #v[20, 4, 0] #v[false, false, false] = [(21, false), (6, false), (0, false)] := by
  decide
theorem test_V11_C1_round1 :
    roundOf #v[3, 2, 1] #v[20, 3, 0] #v[false, false, false] = [(21, false), (4, false), (1, false)] := by decide
theorem test_V11_C1_round2 :
    roundOf #v[3, 2, 1] #v[21, 4, 1] #v[false, false, false] = [(22, false), (5, false), (1, false)] := by decide
theorem test_V12 : roundOf #v[3, 2, 1] #v[20, 3, 15] #v[false, false, false] = [(21, false), (4, false), (16, true)] := by
  decide
theorem test_V14b : roundOf #v[3, 2] #v[20, 3] #v[false, false] = [(21, false), (4, true)] := by decide
theorem test_V17 :
    roundOf #v[3, 2, 1, 4] #v[20, 3, 15, 0] #v[false, false, false, false] =
      [(21, false), (4, false), (16, false), (1, false)] := by decide
theorem test_V17_round2 :
    roundOf #v[3, 2, 1, 4] #v[21, 4, 16, 1] #v[false, false, false, false] =
      [(22, false), (5, false), (16, false), (1, false)] := by decide
theorem test_V18 : roundOf #v[6, 2, 1] #v[11, 0, 0] #v[false, false, false] = [(12, false), (1, false), (0, false)] := by
  decide
theorem test_V20 : roundOf #v[3, 6, 1] #v[0, 12, 0] #v[false, false, false] = [(1, false), (13, false), (0, false)] := by
  decide

/-! ## The signal path -/

/-- An active configuration with its flags at 0. -/
def activeOf (types : Vector (BitVec 4) 3) (offs : Vector (BitVec 5) 3) (refl : BitVec 4) : Active 3 where
  slots := slotsOf types offs #v[false, false, false]
  refl  := refl

theorem test_V21 : (activeOf #v[3, 2, 1] #v[1, 0, 0] 1).path Config.registry 0 = 1 := by decide
theorem test_V22 : (activeOf #v[3, 2, 1] #v[21, 4, 1] 1).path Config.registry 6 = 25 := by decide
theorem test_V23 :
    add26 25 1 = 0 ∧ add26 25 25 = 24 ∧ sub26 0 25 = 1 ∧ sub26 25 0 = 25 ∧ sub26 3 21 = 8 := by decide

/-! ## One step from reset -/

/-- What the response registers hold after one step, if there is a next state. -/
def responseOf (s : State) : Option Response :=
  match step s with
  | .next t => some t.rsp
  | _       => none

/-- The active offsets after one step, fast to slow. -/
def offsetsOf (s : State) : Option (List Nat) :=
  match step s with
  | .next t => some (t.active.slots.toList.map fun x => x.offset.toNat)
  | _       => none

/-- The reset state with other staging registers. -/
def staged (types : Vector (BitVec 4) 3) (offs : Vector (BitVec 5) 3) (refl : BitVec 4) : State :=
  { State.reset with staging := ⟨types, offs, refl⟩ }

/-- The reset state with another active configuration. -/
def withActive (types : Vector (BitVec 4) 3) (offs : Vector (BitVec 5) 3) (refl : BitVec 4) : State :=
  { State.reset with active := activeOf types offs refl }

theorem test_V24 :
    responseOf (State.reset.withFetchWord 32 0x41) = some ⟨true, 0x42, false, 0⟩ ∧
      offsetsOf (State.reset.withFetchWord 32 0x41) = some [1, 0, 0] := by decide
theorem test_V15 :
    responseOf ((withActive #v[3, 2, 1] #v[5, 9, 13] 0).present 0x51) = some ⟨true, 0x5A, false, 0⟩ ∧
      responseOf ((withActive #v[3, 2, 1] #v[5, 9, 13] 0).present 0x5A) = some ⟨true, 0x51, false, 0⟩ := by decide
theorem test_V25_V26 :
    responseOf (State.reset.present 0x20) = some ⟨true, 0x20, false, 0⟩ ∧
      responseOf (State.reset.present 0xC1) = some ⟨true, 0xC1, false, 0⟩ ∧
      offsetsOf (State.reset.present 0xC1) = some [0, 0, 0] := by decide
theorem test_lowercase : responseOf (State.reset.present 0x61) = some ⟨true, 0x42, false, 0⟩ := by decide
theorem test_V27_V28_V37 :
    responseOf (State.reset.present 0x141) = some ⟨true, 0, true, 2⟩ ∧
      responseOf (State.reset.present 0x70000000) = some ⟨true, 0, true, 1⟩ ∧
      responseOf (State.reset.present 0x30000001) = some ⟨true, 0, true, 2⟩ := by decide
theorem test_V29_V30 :
    responseOf (State.reset.present 0x43000000) = some ⟨true, 3, true, 3⟩ ∧
      responseOf (State.reset.present 0x40000000) = some ⟨true, 0x00030000, false, 0⟩ := by decide
/-- RDSLOT 2 of P5: type I, flag 1, offset 16. -/
theorem test_rdslot_flag :
    responseOf (({ State.reset with active := ⟨#v[⟨3, 21, false⟩, ⟨2, 4, false⟩, ⟨1, 16, true⟩], 1⟩ } : State).present
      0x42000000) = some ⟨true, 0x00010110, false, 0⟩ := by decide
theorem test_V31 : responseOf (State.reset.present 0x50000000) = some ⟨true, 0x00000301, false, 0⟩ := by decide
theorem test_V32 : responseOf ((staged #v[3, 9, 1] #v[0, 0, 0] 1).present 0x30000000) = some ⟨true, 1, true, 4⟩ := by
  decide
theorem test_V33_to_V35 :
    responseOf ((staged #v[3, 2, 1] #v[26, 0, 0] 1).present 0x30000000) = some ⟨true, 0, true, 5⟩ ∧
      responseOf ((staged #v[3, 2, 1] #v[0, 0, 0] 3).present 0x30000000) = some ⟨true, 3, true, 6⟩ ∧
      responseOf ((staged #v[0, 2, 1] #v[30, 0, 0] 5).present 0x30000000) = some ⟨true, 0, true, 4⟩ := by decide
/-- COMMIT of P5's configuration. -/
theorem test_commit : offsetsOf ((staged #v[3, 2, 1] #v[20, 3, 15] 1).present 0x30000000) = some [20, 3, 15] := by
  decide
theorem test_V36 : responseOf (State.reset.present 0x13000100) = some ⟨true, 3, true, 3⟩ := by decide
/-- The example of R94. -/
theorem test_setslot :
    step (State.reset.present 0x11000204) =
      .next { State.reset with staging := ⟨#v[3, 2, 1], #v[0, 4, 0], 1⟩, rsp := ⟨true, 0, false, 0⟩ } := by rfl
/-- SETREFL 3 of P3: the illegal identifier is staged. -/
theorem test_setrefl :
    step (State.reset.present 0x20000003) =
      .next { State.reset with staging := ⟨#v[3, 2, 1], #v[0, 0, 0], 3⟩, rsp := ⟨true, 0, false, 0⟩ } := by rfl

/-! ## Witnesses: the hypotheses of each statement can be met -/

/-- Three slots on the start offsets of V11, all flags 0. -/
def slotsV11 : Vector Slot 3 := slotsOf #v[3, 2, 1] #v[20, 3, 0] #v[false, false, false]

theorem reset_legal : State.reset.active.Legal Config.registry := by decide

/-- A state off the reset configuration, with a letter and then a bad word waiting at its port. -/
def busyState : State :=
  { withActive #v[8, 1, 5] #v[25, 0, 17] 2 with port := [.command 0x7A, .command 0xF0000000] }

theorem busyState_inv : busyState.Inv := ⟨by decide, by decide, by decide⟩

theorem registry_legal : Config.registry.Legal := Config.parameters_legal.registry

theorem witness_decoded_word :
    decode 0x0000005A = .ok (.enc 0x5A) ∧ decode 0x1F000F1F = .ok (.setslot 15 15 31) ∧
      decode 0x2000000F = .ok (.setrefl 15) ∧ decode 0x30000000 = .ok .commit ∧
      decode 0x4F000000 = .ok (.rdslot 15) ∧ decode 0x50000000 = .ok .rdrefl := ⟨rfl, rfl, rfl, rfl, rfl, rfl⟩

theorem witness_AssembledWordsAreCommands :
    assemble ['E', 'N', 'C', ' ', '2', '5', '5'] = some [0xFF] ∧ (0xFF : Word) ∈ [(0xFF : Word)] := by decide

theorem witness_StepRaisesDecodeErrors_opcodes :
    6 ≤ ((0x60000000 : Word).extractLsb 31 28).toNat ∧ 6 ≤ ((0xFFFFFFFF : Word).extractLsb 31 28).toNat := by decide

theorem witness_StepRaisesDecodeErrors_reserved :
    ((0x00000100 : Word).extractLsb 31 28 = 0 ∧ (0x00000100 : Word) &&& 0x0FFFFF00 ≠ 0) ∧
    ((0x10000020 : Word).extractLsb 31 28 = 1 ∧ (0x10000020 : Word) &&& 0x00FFF0E0 ≠ 0) ∧
    ((0x10001000 : Word).extractLsb 31 28 = 1 ∧ (0x10001000 : Word) &&& 0x00FFF0E0 ≠ 0) ∧
    ((0x20000010 : Word).extractLsb 31 28 = 2 ∧ (0x20000010 : Word) &&& 0x0FFFFFF0 ≠ 0) ∧
    ((0x38000000 : Word).extractLsb 31 28 = 3 ∧ (0x38000000 : Word) &&& 0x0FFFFFFF ≠ 0) ∧
    ((0x40800000 : Word).extractLsb 31 28 = 4 ∧ (0x40800000 : Word) &&& 0x00FFFFFF ≠ 0) ∧
    ((0x50000001 : Word).extractLsb 31 28 = 5 ∧ (0x50000001 : Word) &&& 0x0FFFFFFF ≠ 0) := by decide

theorem witness_ErrorChangesOnlyResponse :
    ∃ t, step { State.reset with port := .command 0x43000000 :: [] } = .next t ∧ t.rsp.err = true ∧
      State.reset.active.Legal Config.registry := ⟨_, rfl, rfl, reset_legal⟩

theorem witness_EncRunsRoundThenPath_other :
    [0x00, 0x40, 0x5B, 0x60, 0x7B, 0xFF].all (fun c : Nat =>
      ¬((0x41 ≤ (BitVec.ofNat 8 c).toNat ∧ (BitVec.ofNat 8 c).toNat ≤ 0x5A) ∨
        (0x61 ≤ (BitVec.ofNat 8 c).toNat ∧ (BitVec.ofNat 8 c).toNat ≤ 0x7A))) = true := by decide

theorem witness_EncRunsRoundThenPath_letter :
    (0x41 : Byte).toNat = 0x41 + (0 : Index).val ∧ (0x5A : Byte).toNat = 0x41 + (25 : Index).val ∧
      (0x61 : Byte).toNat = 0x61 + (0 : Index).val ∧ (0x7A : Byte).toNat = 0x61 + (25 : Index).val ∧
      State.reset.active.Legal Config.registry := ⟨by decide, by decide, by decide, by decide, reset_legal⟩

theorem witness_EncWritesOnlyOffsetsAndFlags :
    (∃ t, exec (.enc 0x41) State.reset = .next t) ∧
      ∃ t, exec (.enc 0x40) State.reset = .next t ∧ isLetter 0x40 = false := ⟨⟨_, rfl⟩, _, rfl, rfl⟩

theorem witness_OnlyIllegalConfigurationsFault :
    step ((withActive #v[0, 2, 1] #v[0, 0, 0] 1).present 0x41) = .fault .illegalActiveConfiguration := by rfl

theorem witness_CharacterPrimitivesAreAscii :
    isLetter 0x41 = true ∧ isLetter 0x5A = true ∧ isLetter 0x61 = true ∧ isLetter 0x7A = true := by decide

theorem witness_CycleAdvancesAndArms : ((⟨5, 25, true⟩ : Slot)).offset.toNat ≤ 25 ∧ 2 ≠ 0 := by decide

theorem witness_RoundAdvancesEachSlot :
    (∀ i : Fin 3, (slotsV11.get i).offset.toNat ≤ 25) ∧ 0 < 3 ∧ 1 < 3 ∧ 2 < 3 ∧ 2 ≤ 2 := by decide

theorem witness_RoundLeavesNoCarry :
    1 + 1 < 3 ∧ 2 + 1 = 3 ∧
      (slotsOf #v[3, 2, 1] #v[21, 4, 16] #v[false, false, true])[2].pend = true := by decide

theorem witness_CarryRipplesThroughSlowSlots :
    (∀ i : Fin 4, i.val + 1 < 4 →
      ((slotsOf #v[3, 2, 1, 4] #v[20, 3, 15, 0] #v[false, false, false, true]).get i).pend = false) ∧
      2 + 1 < 4 ∧ 2 ≤ 2 := by decide

/-- The set-up of clause (a), V11: the type of slot 1 has the single notch 4. -/
theorem witness_MiddleSlotDoubleSteps_a :
    3 ≤ 3 ∧ (4 : BitVec 5).toNat ≤ 25 ∧
    (∀ o : BitVec 5, o.toNat ≤ 25 → (Config.registry.isNotch slotsV11[1].type o = true ↔ o = 4)) ∧
    (∀ i : Fin 3, i.val + 1 < 3 → (slotsV11.get i).pend = false) ∧ slotsV11[1].offset.toNat ≤ 25 ∧
    Config.registry.isNotch slotsV11[0].type (nextOffset slotsV11[0].offset) = true ∧
    nextOffset slotsV11[1].offset = 4 := by decide

/-- The set-up of clause (b), V10. -/
theorem witness_MiddleSlotDoubleSteps_b :
    let v := slotsOf #v[3, 2, 1] #v[20, 4, 0] #v[false, false, false]
    3 ≤ 3 ∧ (4 : BitVec 5).toNat ≤ 25 ∧
    (∀ o : BitVec 5, o.toNat ≤ 25 → (Config.registry.isNotch v[1].type o = true ↔ o = 4)) ∧
    (∀ i : Fin 3, i.val + 1 < 3 → (v.get i).pend = false) ∧ v[1].offset.toNat ≤ 25 ∧
    Config.registry.isNotch v[0].type (nextOffset v[0].offset) = true ∧ v[1].offset = 4 := by decide

theorem witness_SingleSlotReturnsAfterRevolution :
    let v := slotsOf #v[1] #v[15] #v[true]
    v[0].offset.toNat ≤ 25 ∧ Config.registry.isNotch v[0].type (round Config.registry v)[0].offset = true ∧
      v[0].pend = true := by decide

theorem witness_TwoSlotsSelfStepAndStick :
    (⟨3, 25, false⟩ : Slot).offset.toNat ≤ 25 ∧ (⟨2, 4, true⟩ : Slot).offset.toNat ≤ 25 ∧
      (⟨2, 4, true⟩ : Slot).pend = true := by decide

theorem witness_known_types :
    Config.registry.Legal ∧ 1 ≤ (1 : BitVec 4).toNat ∧ (8 : BitVec 4).toNat ≤ Config.registry.ntypes :=
  ⟨registry_legal, by decide, by decide⟩

theorem witness_PathIsCascadeOfShiftedLookups : (⟨3, 25, false⟩ : Slot).offset.toNat ≤ 25 := by decide

theorem witness_legal_path :
    Config.registry.Legal ∧ (activeOf #v[8, 1, 5] #v[25, 0, 17] 2).Legal Config.registry :=
  ⟨registry_legal, by decide⟩

theorem witness_letter_of_legal_state :
    isLetter 0x7A = true ∧ State.reset.active.Legal Config.registry ∧
      ∃ t, exec (.enc 0x7A) State.reset = .next t := ⟨rfl, reset_legal, _, rfl⟩

theorem witness_PathIsBijective :
    isLetter 0x5A = true ∧ isLetter 0x7A = true ∧ letterIndex 0x5A = letterIndex 0x7A ∧
      State.reset.active = (staged #v[0, 0, 0] #v[31, 31, 31] 15).active ∧
      ∃ t, exec (.enc 0x5A) State.reset = .next t := ⟨rfl, rfl, rfl, rfl, _, rfl⟩

theorem witness_slot_operands : (2 : BitVec 4).toNat < 3 ∧ 3 ≤ (3 : BitVec 4).toNat ∧ 3 ≤ (15 : BitVec 4).toNat := by
  decide

theorem witness_CommitInstallsOrKeeps_legal :
    let c := (staged #v[1, 8, 8] #v[16, 25, 0] 2).staging
    (∀ i : Fin 3, 1 ≤ (c.types.get i).toNat ∧ (c.types.get i).toNat ≤ 8 ∧ (c.offs.get i).toNat ≤ 25) ∧
      c.refl.toNat < 3 := by decide

theorem witness_CommitInstallsOrKeeps_illegal :
    let c := (staged #v[1, 8, 8] #v[16, 25, 0] 3).staging
    ¬((∀ i : Fin 3, 1 ≤ (c.types.get i).toNat ∧ (c.types.get i).toNat ≤ 8 ∧ (c.offs.get i).toNat ≤ 25) ∧
      c.refl.toNat < 3) := by decide

/-- An unknown type in slot 2, after good slots; and type 0 in slot 0, whose offset is illegal too. -/
theorem witness_CommitReportsFirstFailure_type :
    let c := (staged #v[1, 8, 9] #v[0, 25, 31] 15).staging
    let d := (staged #v[0, 8, 9] #v[26, 25, 31] 15).staging
    (∀ j : Fin 3, j < 2 → (1 ≤ (c.types.get j).toNat ∧ (c.types.get j).toNat ≤ 8) ∧ (c.offs.get j).toNat ≤ 25) ∧
      ¬(1 ≤ (c.types.get 2).toNat ∧ (c.types.get 2).toNat ≤ 8) ∧
      ¬(1 ≤ (d.types.get 0).toNat ∧ (d.types.get 0).toNat ≤ 8) := by decide

/-- An offset of 26 under a known type in slot 1, after a good slot. -/
theorem witness_CommitReportsFirstFailure_offset :
    let c := (staged #v[1, 8, 9] #v[25, 26, 31] 15).staging
    (∀ j : Fin 3, j < 1 → (1 ≤ (c.types.get j).toNat ∧ (c.types.get j).toNat ≤ 8) ∧ (c.offs.get j).toNat ≤ 25) ∧
      (1 ≤ (c.types.get 1).toNat ∧ (c.types.get 1).toNat ≤ 8) ∧ 26 ≤ (c.offs.get 1).toNat := by decide

/-- Good slots, with the first unknown reflector and with the last known one. -/
theorem witness_CommitReportsFirstFailure_reflector :
    let c := (staged #v[1, 8, 1] #v[25, 0, 25] 3).staging
    (∀ i : Fin 3, (1 ≤ (c.types.get i).toNat ∧ (c.types.get i).toNat ≤ 8) ∧ (c.offs.get i).toNat ≤ 25) ∧
      3 ≤ c.refl.toNat ∧ (2 : BitVec 4).toNat < 3 := by decide

theorem witness_ConfigPseudoInstalls : (⟨#v[8, 8, 1], #v[25, 0, 16], 2⟩ : Configuration 3).Legal Config.registry := by
  decide

theorem witness_OnlyLettersCommitsAndResetWriteActive :
    ∃ t, step (State.reset.present 0x41) = .next t ∧ t.active ≠ (State.reset.present 0x41).active :=
  ⟨_, rfl, by decide⟩

theorem witness_OnlyStagingCommandsAndResetWriteStaging :
    ∃ t, step (State.reset.present 0x20000003) = .next t ∧ t.staging ≠ (State.reset.present 0x20000003).staging :=
  ⟨_, rfl, by decide⟩

theorem witness_StagingIsInvisibleWithoutCommit :
    Instr.enc 0x41 ≠ .commit ∧ ∃ t, exec (.enc 0x41) State.reset = .next t := ⟨by decide, _, rfl⟩

theorem witness_SlowestFlagIsInvisible :
    (∀ slot, Instr.enc 0x41 ≠ .rdslot slot) ∧
      State.reset.active.SameButSlowestFlag ⟨#v[⟨3, 0, false⟩, ⟨2, 0, false⟩, ⟨1, 0, true⟩], 1⟩ ∧
      ∃ t, exec (.enc 0x41) State.reset = .next t := ⟨fun _ => nofun, by decide, _, rfl⟩

theorem witness_SlowestFlagSticks :
    let s := ({ State.reset with active := ⟨#v[⟨3, 0, false⟩, ⟨2, 0, false⟩, ⟨1, 16, true⟩], 1⟩ } : State).present 0x30000000
    ∃ t, step s = .next t ∧ s.active.slots[2].pend = true ∧ t.active.slots[2].pend = false := ⟨_, rfl, rfl, rfl⟩

theorem witness_StepKeepsInvariant : busyState.Inv ∧ ∃ t, step busyState = .next t := ⟨busyState_inv, _, rfl⟩

theorem witness_RunsNeverStop : busyState.Inv := busyState_inv

end Sys2Proof.Tests
end

section
/-! PROOFS. The primitives of spec/00_scope.md: the modular arithmetic of R9 and the characters of R12. -/

namespace Sys2Proof.Machine

open Sys2Proof

/-- R9: a sum of two indices is below 52, so one conditional subtraction of 26 reduces it. -/
theorem add26_val_eq_ite (a b : Index) :
    (add26 a b).val = if a.val + b.val < 26 then a.val + b.val else a.val + b.val - 26 := by
  rw [add26_val]
  split
  next hlt => exact Nat.mod_eq_of_lt hlt
  next hge =>
    have hsum : a.val + b.val - 26 < 26 := by omega
    rw [Nat.mod_eq_sub_mod (by omega), Nat.mod_eq_of_lt hsum]

/-- R9: a difference of two indices needs 26 added exactly when it borrows. -/
theorem sub26_val_eq_ite (a b : Index) :
    (sub26 a b).val = if b.val ≤ a.val then a.val - b.val else 26 + a.val - b.val := by
  rw [sub26_val]
  split
  next hle =>
    have hdiff : a.val - b.val < 26 := by omega
    rw [Nat.add_sub_assoc hle, Nat.add_mod_left, Nat.mod_eq_of_lt hdiff]
  next hborrow => exact Nat.mod_eq_of_lt (by omega)

/-- R12: the index of a letter is its distance from the first letter of its own case. -/
theorem letterIndex_val {c : Byte} (h : isLetter c = true) :
    (letterIndex c).val = if c.toNat ≤ 0x5A then c.toNat - 0x41 else c.toNat - 0x61 := by
  obtain ⟨hlo, hhi⟩ | ⟨hlo, hhi⟩ := (isLetter_iff c).mp h
  · have hx : letterIndex c = ⟨c.toNat - 0x41, by omega⟩ :=
      letterIndex_upper (Nat.add_sub_of_le hlo).symm
    rw [hx, if_pos hhi]
  · have hx : letterIndex c = ⟨c.toNat - 0x61, by omega⟩ :=
      letterIndex_lower (Nat.add_sub_of_le hlo).symm
    rw [hx, if_neg (by omega)]

/-- Settles O7: the sums by the definitions, the single corrections because both operands are below 26. -/
theorem modularPrimitivesWrapAt26 : Obligations.ModularPrimitivesWrapAt26 := fun a b =>
  ⟨add26_val a b, sub26_val a b, add26_val_eq_ite a b, sub26_val_eq_ite a b⟩

/-- Settles O8, one lemma per primitive; `letterIndex` by the case of the letter. -/
theorem characterPrimitivesAreAscii : Obligations.CharacterPrimitivesAreAscii :=
  ⟨isLetter_iff, fun _ h => letterIndex_val h, letterByte_toNat⟩

end Sys2Proof.Machine
end

section
/-! PROOFS. What a step leaves behind, said once: every way a command and an edge can end in a next state. -/

namespace Sys2Proof.Machine

open Sys2Proof

/-- The next states a command can lead to: a bare response, or one write and the response of success (R93 to R102). -/
inductive ExecEffect (s : State) : Instr → State → Prop
  | complete (i : Instr) (d : Word) : ExecEffect s i (s.complete d)
  | raise (i : Instr) (e : Error) (info : Word) : ExecEffect s i (s.raise e info)
  | letter (ch : Byte) (d : Word) (hl : isLetter ch = true) (h : s.active.Legal Config.registry) :
      ExecEffect s (.enc ch) ((s.activate (s.active.stepped Config.registry)).complete d)
  | stageSlot (slot type : BitVec 4) (off : BitVec 5) (k : Fin Config.NROT) :
      ExecEffect s (.setslot slot type off) ((s.stageSlot k type off).complete 0)
  | stageRefl (rid : BitVec 4) : ExecEffect s (.setrefl rid) ((s.stageRefl rid).complete 0)
  | install (h : s.staging.Legal Config.registry) :
      ExecEffect s .commit ((s.activate (Active.ofConfiguration s.staging)).complete 0)

/-- A command that answers a next state has one of the effects. -/
theorem execEffect_of_next {i : Instr} {s t : State} (h : exec i s = .next t) : ExecEffect s i t := by
  rcases exec_cases s i with ⟨ch, rfl, -, he⟩ | ⟨ch, rfl, hl, hleg, he⟩ | ⟨ch, rfl, -, -, he⟩ |
    ⟨slot, type, off, hs, rfl, he⟩ | ⟨slot, type, off, -, rfl, he⟩ | ⟨rid, rfl, he⟩ | ⟨rfl, hleg, he⟩ |
    ⟨e, info, rfl, -, -, he⟩ | ⟨slot, hs, rfl, he⟩ | ⟨slot, -, rfl, he⟩ | ⟨rfl, he⟩ <;>
    cases he.symm.trans h
  · exact .complete _ _
  · exact .letter ch _ hl hleg
  · exact .stageSlot slot type off ⟨slot.toNat, hs⟩
  · exact .raise _ _ _
  · exact .stageRefl rid
  · exact .install hleg
  · exact .raise _ _ _
  · exact .complete _ _
  · exact .raise _ _ _
  · exact .complete _ _

/-- At a legal active configuration every command answers a next state (R23, R28). -/
theorem exec_next_of_legal (i : Instr) {s : State} (h : s.active.Legal Config.registry) :
    ∃ t, exec i s = .next t := by
  rcases exec_cases s i with ⟨_, -, -, he⟩ | ⟨_, -, -, -, he⟩ | ⟨_, -, -, hbad, -⟩ | ⟨_, _, _, _, -, he⟩ |
    ⟨_, _, _, -, -, he⟩ | ⟨_, -, he⟩ | ⟨-, -, he⟩ | ⟨_, _, -, -, -, he⟩ | ⟨_, _, -, he⟩ | ⟨_, -, -, he⟩ | ⟨-, he⟩
  case inr.inr.inl => exact absurd h hbad
  all_goals exact ⟨_, he⟩

/-- The next states an edge can lead to: an idle edge, a reset, a word that is no command, or a command (R92, R123). -/
inductive StepEffect (s : State) : State → Prop
  | idle (rest : List PortInput) (hp : rest = s.port.tail) : StepEffect s { s.idle with port := rest }
  | reset (p : PortInput) (rest : List PortInput) (hp : s.port = p :: rest) (hr : p.rst = true) :
      StepEffect s { State.reset with port := rest }
  | reject (p : PortInput) (rest : List PortInput) (hp : s.port = p :: rest) (hv : p.cmdValid = true)
      (e : Error) (hd : decode p.cmd = .error e) :
      StepEffect s (({ s with port := rest } : State).raise e 0)
  | command (p : PortInput) (rest : List PortInput) (hp : s.port = p :: rest) (hv : p.cmdValid = true)
      (i : Instr) (hd : decode p.cmd = .ok i) (t : State) (hx : ExecEffect { s with port := rest } i t) :
      StepEffect s t

/-- A step that answers a next state has one of the effects. -/
theorem stepEffect_of_next {s t : State} (h : step s = .next t) : StepEffect s t := by
  rcases step_cases s with ⟨hp, hs⟩ | ⟨p, rest, hp, ⟨hr, hs⟩ | ⟨-, -, hs⟩ | ⟨-, hv, hs⟩⟩
  · cases hs.symm.trans h
    exact .idle s.port (by rw [hp, List.tail_nil])
  · cases hs.symm.trans h
    exact .reset p rest hp hr
  · cases hs.symm.trans h
    exact .idle rest (by rw [hp, List.tail_cons])
  · rw [h] at hs
    cases hd : decode p.cmd with
    | ok i => exact .command p rest hp hv i hd t (execEffect_of_next (by rw [hs, accept_of_ok _ _ hd]))
    | error e =>
      rw [accept_of_error _ _ hd] at hs
      cases hs
      exact .reject p rest hp hv e hd

end Sys2Proof.Machine
end

section
/-! PROOFS. The flags between commands (spec/10_state.md R18, R19): what a round and COMMIT leave in them, and that
nothing else a round does depends on the slowest slot's flag. -/

namespace Sys2Proof.Machine

open Sys2Proof

variable {n : Nat} (g : Registry)

/-- A round leaves no flag set below the slowest slot (R19, R72). -/
theorem round_pend_of_lt (v : Vector Slot n) (j : Nat) (h : j + 1 < n) : (round g v)[j].pend = false := by
  rw [round_get, if_pos h, clearPend_pend]

/-- Steps 1 and 2 of the round clear no flag (R68, R71). -/
theorem stepped_pend_of_pend (v : Vector Slot n) (j : Nat) (hj : j < n) (hp : v[j].pend = true) :
    (selfStep g (cycle g 0 v))[j].pend = true := by
  have hc : (v[j].cycled g).pend = true := by rw [cycled_pend, hp, Bool.true_or]
  rw [stepped_get]
  split
  · exact hc
  · split
    · exact hc
    · exact hp

/-- A round never clears the slowest slot's flag (R19, R72). -/
theorem round_pend_slowest (v : Vector Slot n) (j : Nat) (hj : j < n) (hlast : j + 1 = n) (hp : v[j].pend = true) :
    (round g v)[j].pend = true := by
  rw [round_get, if_neg (by omega)]
  exact arrived_pend_of_pend g _ j hj (stepped_pend_of_pend g v j hj hp)

theorem stepped_carriesDone (a : Active n) : (a.stepped g).CarriesDone := fun i hi =>
  round_pend_of_lt g a.slots i.val hi

theorem ofConfiguration_carriesDone (c : Configuration n) : (Active.ofConfiguration c).CarriesDone := fun i _ => by
  rw [Vector.get_eq_getElem, ofConfiguration_slot]

/-- Two slots of one type and offset, and of one flag where `p` says that the flag counts. -/
structure Slot.Agree (p : Prop) (x y : Slot) : Prop where
  type   : x.type = y.type
  offset : x.offset = y.offset
  pend   : p → x.pend = y.pend

theorem Slot.Agree.cycled {p : Prop} {x y : Slot} (h : x.Agree p y) : (x.cycled g).Agree p (y.cycled g) where
  type   := h.type
  offset := congrArg nextOffset h.offset
  pend   := fun hp => by simp only [cycled_pend, h.type, h.offset, h.pend hp]

theorem Slot.Agree.clearPend {p : Prop} {x y : Slot} (h : x.Agree p y) : x.clearPend = y.clearPend := by
  simp only [Slot.clearPend, h.type, h.offset]

theorem Slot.Agree.onNotch {p : Prop} {x y : Slot} (h : x.Agree p y) : x.onNotch g = y.onNotch g := by
  simp only [Slot.onNotch, h.type, h.offset]

/-- Two slot vectors that agree in all but the slowest slot's flag. -/
def AgreeBelow (v w : Vector Slot n) : Prop := ∀ (j : Nat) (hj : j < n), v[j].Agree (j + 1 < n) w[j]

theorem sameButSlowestFlag_iff {a b : Active n} :
    a.SameButSlowestFlag b ↔ a.refl = b.refl ∧ AgreeBelow a.slots b.slots :=
  and_congr_right fun _ =>
    ⟨fun h j hj => let ⟨htype, hoff, hpend⟩ := h ⟨j, hj⟩; ⟨htype, hoff, hpend⟩,
      fun h i => let ⟨htype, hoff, hpend⟩ := h i.val i.isLt; ⟨htype, hoff, hpend⟩⟩

variable {v w : Vector Slot n}

/-- Steps 1 and 2 read no flag but to keep it (R68, R71). -/
theorem AgreeBelow.stepped (h : AgreeBelow v w) :
    AgreeBelow (selfStep g (cycle g 0 v)) (selfStep g (cycle g 0 w)) := fun j hj => by
  rw [stepped_get, stepped_get, (h j hj).onNotch g]
  split
  · exact (h j hj).cycled g
  · split
    · exact (h j hj).cycled g
    · exact h j hj

/-- Step 3 visits a slot with the flag of the slot before it, which is never the slowest one (R72). -/
theorem AgreeBelow.arrived (h : AgreeBelow v w) (j : Nat) (hj : j < n) :
    (arrived g v j hj).Agree (j + 1 < n) (arrived g w j hj) := by
  induction j with
  | zero => exact h 0 hj
  | succ j ih =>
    have hcarry := (ih (by omega)).pend hj
    rw [arrived_succ, arrived_succ, hcarry]
    split
    · exact (h (j + 1) hj).cycled g
    · exact h (j + 1) hj

/-- The slowest slot's flag influences nothing a round does but itself (R19, R72). -/
theorem AgreeBelow.round (h : AgreeBelow v w) : AgreeBelow (round g v) (round g w) := fun j hj => by
  have hj' := (h.stepped g).arrived g j hj
  rw [round_get, round_get]
  split
  · rw [hj'.clearPend]
    exact ⟨rfl, rfl, fun _ => rfl⟩
  · exact hj'

theorem sameButSlowestFlag_stepped {a b : Active n} (h : a.SameButSlowestFlag b) :
    (a.stepped g).SameButSlowestFlag (b.stepped g) := by
  obtain ⟨hrefl, hslots⟩ := sameButSlowestFlag_iff.mp h
  exact sameButSlowestFlag_iff.mpr ⟨hrefl, hslots.round g⟩

/-- The configuration holds no flag (R95). -/
theorem sameButSlowestFlag_configuration {a b : Active n} (h : a.SameButSlowestFlag b) :
    a.configuration = b.configuration := by
  obtain ⟨hrefl, hslots⟩ := h
  simp only [Active.configuration, hrefl, fun i => (hslots i).1, fun i => (hslots i).2.1]

/-- The signal path reads no flag (R81, R84, R86). -/
theorem path_map_clearPend (a : Active n) (x : Index) :
    ({ a with slots := a.slots.map Slot.clearPend } : Active n).path g x = a.path g x := by
  simp only [Active.path, forward, backward, Vector.toList_map, List.foldl_map, List.foldr_map]
  rfl

theorem sameButSlowestFlag_path {a b : Active n} (h : a.SameButSlowestFlag b) (x : Index) :
    a.path g x = b.path g x := by
  obtain ⟨hrefl, hslots⟩ := sameButSlowestFlag_iff.mp h
  have hmap : a.slots.map Slot.clearPend = b.slots.map Slot.clearPend :=
    Vector.ext fun j hj => by rw [Vector.getElem_map, Vector.getElem_map, (hslots j hj).clearPend]
  rw [← path_map_clearPend g a, ← path_map_clearPend g b, hmap, hrefl]

/-- The output letter does not depend on the slowest slot's flag. -/
theorem sameButSlowestFlag_encipher {a b : Active n} (h : a.SameButSlowestFlag b) (ch : Byte) :
    a.encipher g ch = b.encipher g ch := by
  rw [Active.encipher, Active.encipher, sameButSlowestFlag_path g h]

theorem sameButSlowestFlag_refl (a : Active n) : a.SameButSlowestFlag a :=
  ⟨rfl, fun _ => ⟨rfl, rfl, fun _ => rfl⟩⟩

end Sys2Proof.Machine
end

section
/-! PROOFS. The rules of the whole machine about its state (spec/10_state.md): the invariant, what writes and what reads
the active and the staging registers, and the response registers. -/

namespace Sys2Proof.Machine

open Sys2Proof

/-- Success has code 0 (R51, R104). -/
theorem coded_of_complete (s : State) (d : Word) : (s.complete d).rsp.Coded :=
  ⟨Nat.zero_le 6, iff_of_false Bool.false_ne_true fun h => h rfl⟩

/-- An error has a code of the error table, which is not 0 (R104). -/
theorem coded_of_raise (s : State) (e : Error) (info : Word) : (s.raise e info).rsp.Coded := by
  obtain ⟨hpos, hle⟩ := errorCode_range e
  have hne : errorCode e ≠ 0 := fun h0 => absurd hpos (by rw [h0]; decide)
  exact ⟨hle, iff_of_true rfl hne⟩

/-- Settles O48: the reset configuration is a legal one (R62), installed with every flag 0. -/
theorem resetMeetsInvariant : Obligations.ResetMeetsInvariant where
  legal   := ofConfiguration_legal Config.parameters_legal.reset
  carries := ofConfiguration_carriesDone _
  coded   := by decide

/-- Every effect of a command keeps the invariant. -/
theorem ExecEffect.inv {s t : State} {i : Instr} (h : ExecEffect s i t) (hs : s.Inv) : t.Inv := by
  obtain ⟨hlegal, hcarries, -⟩ := hs
  cases h with
  | complete _ d => exact ⟨hlegal, hcarries, coded_of_complete _ _⟩
  | raise _ e info => exact ⟨hlegal, hcarries, coded_of_raise _ _ _⟩
  | letter ch d _ _ => exact ⟨stepped_legal hlegal, stepped_carriesDone _ _, coded_of_complete _ _⟩
  | stageSlot slot type off k => exact ⟨hlegal, hcarries, coded_of_complete _ _⟩
  | stageRefl rid => exact ⟨hlegal, hcarries, coded_of_complete _ _⟩
  | install hst => exact ⟨ofConfiguration_legal hst, ofConfiguration_carriesDone _, coded_of_complete _ _⟩

/-- The invariant says nothing of the port. -/
theorem inv_with_port {s : State} (h : s.Inv) (rest : List PortInput) : ({ s with port := rest } : State).Inv :=
  ⟨h.legal, h.carries, h.coded⟩

/-- Settles O49, by the effects of a step; the command's own effects are `ExecEffect.inv`. -/
theorem stepKeepsInvariant : Obligations.StepKeepsInvariant := fun s t hs h => by
  cases stepEffect_of_next h with
  | idle rest _ => exact ⟨hs.legal, hs.carries, hs.coded⟩
  | reset p rest _ _ => exact inv_with_port resetMeetsInvariant rest
  | reject p rest _ _ e _ => exact ⟨hs.legal, hs.carries, coded_of_raise _ _ _⟩
  | command p rest _ _ i _ _ hx => exact hx.inv (inv_with_port hs rest)

/-- Every effect of a command sets `rsp_valid` (R27). -/
theorem ExecEffect.valid {s t : State} {i : Instr} (h : ExecEffect s i t) : t.rsp.valid = true := by
  cases h <;> rfl

/-- An accepted word is answered at a legal active configuration, with its command's response (R27, R92). -/
theorem accept_responds (w : Word) {s : State} (h : s.active.Legal Config.registry) :
    ∃ t, accept w s = .next t ∧ t.rsp.valid = true ∧
      ∀ i, decode w = .ok i → ∃ u, exec i s = .next u ∧ t.rsp = u.rsp := by
  cases hd : decode w with
  | error e => exact ⟨_, accept_of_error s w hd, rfl, nofun⟩
  | ok i =>
    obtain ⟨t, ht⟩ := exec_next_of_legal i h
    refine ⟨t, (accept_of_ok s w hd).trans ht, (execEffect_of_next ht).valid, fun j hj => ?_⟩
    cases hj
    exact ⟨t, ht, rfl⟩

/-- Settles O14: an accepted word by `accept_responds`, the other edges by the model's own equations. -/
theorem responseValidFollowsAcceptance : Obligations.ResponseValidFollowsAcceptance :=
  ⟨fun s _ rest h =>
    ⟨accept_responds _ (s := { s with port := rest }) h, ⟨_, rfl, rfl, rfl, rfl, rfl⟩,
      fun _ => ⟨_, rfl, rfl⟩⟩,
    fun _ _ _ _ => rfl⟩

/-- A command that writes the active state is an ENC of a letter or a COMMIT (R18, R63). -/
theorem ExecEffect.writes_active {s t : State} {i : Instr} (h : ExecEffect s i t) (hne : t.active ≠ s.active) :
    i = .commit ∨ ∃ ch, i = .enc ch ∧ isLetter ch = true := by
  cases h with
  | letter ch _ hl _ => exact .inr ⟨ch, rfl, hl⟩
  | install _ => exact .inl rfl
  | complete | raise | stageSlot | stageRefl => exact absurd rfl hne

/-- Settles O43, by the effects of a step. -/
theorem onlyLettersCommitsAndResetWriteActive : Obligations.OnlyLettersCommitsAndResetWriteActive :=
  fun s t h hne => by
    cases stepEffect_of_next h with
    | idle rest _ => exact absurd rfl hne
    | reset p rest hp hr => exact ⟨p, rest, hp, .inl hr⟩
    | reject p rest _ _ e _ => exact absurd rfl hne
    | command p rest hp hv i hd _ hx =>
      refine ⟨p, rest, hp, .inr ⟨hv, ?_⟩⟩
      rcases hx.writes_active hne with rfl | ⟨ch, rfl, hl⟩
      · exact .inl hd
      · exact .inr ⟨ch, hd, hl⟩

/-- A command that writes a staging register is a SETSLOT or a SETREFL (R22). -/
theorem ExecEffect.writes_staging {s t : State} {i : Instr} (h : ExecEffect s i t) (hne : t.staging ≠ s.staging) :
    (∃ slot type off, i = .setslot slot type off) ∨ ∃ rid, i = .setrefl rid := by
  cases h with
  | stageSlot slot type off _ => exact .inl ⟨slot, type, off, rfl⟩
  | stageRefl rid => exact .inr ⟨rid, rfl⟩
  | complete | raise | letter | install => exact absurd rfl hne

/-- Settles O44, by the effects of a step. -/
theorem onlyStagingCommandsAndResetWriteStaging : Obligations.OnlyStagingCommandsAndResetWriteStaging :=
  fun s t h hne => by
    cases stepEffect_of_next h with
    | idle rest _ => exact absurd rfl hne
    | reset p rest hp hr => exact ⟨p, rest, hp, .inl hr⟩
    | reject p rest _ _ e _ => exact absurd rfl hne
    | command p rest hp hv i hd _ hx =>
      refine ⟨p, rest, hp, .inr ⟨hv, ?_⟩⟩
      rcases hx.writes_staging hne with ⟨slot, type, off, rfl⟩ | ⟨rid, rfl⟩
      · exact .inl ⟨slot, type, off, hd⟩
      · exact .inr ⟨rid, hd⟩

/-- A command that clears the slowest slot's flag is a COMMIT that succeeds: a round never does (R19, R72). -/
theorem ExecEffect.clears_slowest {s t : State} {i : Instr} (h : ExecEffect s i t)
    (hset : s.active.slots[2].pend = true) (hclear : t.active.slots[2].pend = false) :
    i = .commit ∧ t.rsp.err = false := by
  cases h with
  | install _ => exact ⟨rfl, rfl⟩
  | letter ch d _ _ =>
    have hkept := round_pend_slowest Config.registry s.active.slots 2 (by decide) rfl hset
    exact absurd (hkept.symm.trans hclear) (by decide)
  | complete | raise | stageSlot | stageRefl => exact absurd (hset.symm.trans hclear) (by decide)

/-- Settles O47, by the effects of a step. -/
theorem slowestFlagSticks : Obligations.SlowestFlagSticks := fun s t h hset hclear => by
  cases stepEffect_of_next h with
  | idle rest _ => exact absurd (hset.symm.trans hclear) (by decide)
  | reset p rest hp hr => exact ⟨p, rest, hp, .inl hr⟩
  | reject p rest _ _ e _ => exact absurd (hset.symm.trans hclear) (by decide)
  | command p rest hp hv i hd _ hx =>
    obtain ⟨rfl, herr⟩ := hx.clears_slowest hset hclear
    exact ⟨p, rest, hp, .inr ⟨hv, hd, herr⟩⟩

/-- Settles O45: every way a command but COMMIT can go is decided by its operands and the active state alone. -/
theorem stagingIsInvisibleWithoutCommit : Obligations.StagingIsInvisibleWithoutCommit := fun i s t c hi h => by
  rcases exec_cases s i with ⟨ch, rfl, hl, he⟩ | ⟨ch, rfl, hl, hleg, he⟩ | ⟨ch, rfl, -, -, he⟩ |
    ⟨slot, type, off, hs, rfl, he⟩ | ⟨slot, type, off, hs, rfl, he⟩ | ⟨rid, rfl, he⟩ | ⟨rfl, -, he⟩ |
    ⟨e, info, rfl, -, -, he⟩ | ⟨slot, hs, rfl, he⟩ | ⟨slot, hs, rfl, he⟩ | ⟨rfl, he⟩ <;>
    cases he.symm.trans h
  · exact ⟨_, exec_enc_other _ hl, rfl, rfl⟩
  · exact ⟨_, exec_enc_letter _ hl hleg, rfl, rfl⟩
  · exact ⟨_, exec_setslot_of_lt _ hs, rfl, rfl⟩
  · exact ⟨_, exec_setslot_of_le _ hs, rfl, rfl⟩
  · exact ⟨_, rfl, rfl, rfl⟩
  · exact absurd rfl hi
  · exact absurd rfl hi
  · exact ⟨_, exec_rdslot_of_lt _ hs, rfl, rfl⟩
  · exact ⟨_, exec_rdslot_of_le _ hs, rfl, rfl⟩
  · exact ⟨_, rfl, rfl, rfl⟩

/-- Two states that differ in the slowest slot's flag alone answer COMMIT alike: it reads the staging registers only. -/
theorem slowestFlagIsInvisible_commit {s s' t : State} (hsame : s.active.SameButSlowestFlag s'.active)
    (hst : s'.staging = s.staging) (h : exec .commit s = .next t) :
    ∃ t', exec .commit s' = .next t' ∧ t'.rsp = t.rsp ∧ t'.staging = t.staging ∧
      t.active.SameButSlowestFlag t'.active := by
  cases hv : validate Config.registry s.staging with
  | some f =>
    rw [exec_commit_failure s hv] at h
    cases h
    exact ⟨_, exec_commit_failure s' (hst ▸ hv), rfl, hst, hsame⟩
  | none =>
    have hleg := (validate_eq_none _ _).mp hv
    rw [exec_commit_legal s hleg] at h
    cases h
    refine ⟨_, exec_commit_legal s' (hst ▸ hleg), rfl, hst, ?_⟩
    simp only [complete_active, activate_active, hst]
    exact sameButSlowestFlag_refl _

/-- Two states that differ in the slowest slot's flag alone answer ENC alike: neither the path nor the rest of the
round reads that flag. -/
theorem slowestFlagIsInvisible_enc {ch : Byte} {s s' t : State} (hsame : s.active.SameButSlowestFlag s'.active)
    (hst : s'.staging = s.staging) (h : exec (.enc ch) s = .next t) :
    ∃ t', exec (.enc ch) s' = .next t' ∧ t'.rsp = t.rsp ∧ t'.staging = t.staging ∧
      t.active.SameButSlowestFlag t'.active := by
  cases hl : isLetter ch with
  | false =>
    rw [exec_enc_other s hl] at h
    cases h
    exact ⟨_, exec_enc_other s' hl, rfl, hst, hsame⟩
  | true =>
    by_cases hleg : s.active.Legal Config.registry
    · rw [exec_enc_letter s hl hleg] at h
      cases h
      have hstep := sameButSlowestFlag_stepped Config.registry hsame
      have hleg' : s'.active.Legal Config.registry := by
        rwa [Active.Legal, ← sameButSlowestFlag_configuration hsame]
      refine ⟨_, exec_enc_letter s' hl hleg', ?_, hst, hstep⟩
      rw [complete_rsp, complete_rsp, sameButSlowestFlag_encipher _ hstep]
    · rw [exec_enc_illegal s hl hleg] at h
      cases h

/-- Settles O46, by the command; the two that use the flags' frame are lemmas of their own. -/
theorem slowestFlagIsInvisible : Obligations.SlowestFlagIsInvisible := fun i s s' t hi hsame hst h => by
  cases i with
  | enc ch => exact slowestFlagIsInvisible_enc hsame hst h
  | commit => exact slowestFlagIsInvisible_commit hsame hst h
  | rdslot slot => exact absurd rfl (hi slot)
  | setrefl rid =>
    cases h
    exact ⟨_, rfl, rfl, by simp only [complete_staging, State.stageRefl, hst], hsame⟩
  | rdrefl =>
    cases h
    exact ⟨_, rfl, by simp only [complete_rsp, Active.reflWord, hsame.1], hst, hsame⟩
  | setslot slot type off =>
    by_cases hs : slot.toNat < Config.NROT
    · rw [exec_setslot_of_lt s hs] at h
      cases h
      exact ⟨_, exec_setslot_of_lt s' hs, rfl, by simp only [complete_staging, State.stageSlot, hst], hsame⟩
    · rw [exec_setslot_of_le s (Nat.le_of_not_lt hs)] at h
      cases h
      exact ⟨_, exec_setslot_of_le s' (Nat.le_of_not_lt hs), rfl, hst, hsame⟩

end Sys2Proof.Machine
end

section
/-! PROOFS. The memory of spec/20_memory.md: the table that is computed and not stored (R29), and, because a legal
active configuration never forms an index outside a table (R28), a machine that never stops. -/

namespace Sys2Proof.Machine

open Sys2Proof

/-- Progress: at a legal active configuration every edge answers a next state, whatever the inputs (R28, R92, R113). -/
theorem step_next_of_legal {s : State} (h : s.active.Legal Config.registry) : ∃ t, step s = .next t := by
  rcases step_cases s with ⟨-, hidle⟩ | ⟨p, rest, -, ⟨-, hreset⟩ | ⟨-, -, hidle⟩ | ⟨-, -, haccept⟩⟩
  · exact ⟨_, hidle⟩
  · exact ⟨_, hreset⟩
  · exact ⟨_, hidle⟩
  · obtain ⟨t, ht, -⟩ := accept_responds p.cmd (s := { s with port := rest }) h
    exact ⟨t, haccept.trans ht⟩

/-- Settles O50, by induction on the edges: the invariant gives the next edge an answer, which meets it again. -/
theorem runsNeverStop : Obligations.RunsNeverStop := fun k => by
  induction k with
  | zero => exact fun s hs => ⟨s, rfl, hs⟩
  | succ k ih =>
    intro s hs
    obtain ⟨t, hstep⟩ := step_next_of_legal hs.legal
    obtain ⟨u, hrun, hu⟩ := ih t (stepKeepsInvariant s t hs hstep)
    exact ⟨u, (run_succ_of_next k hstep).trans hrun, hu⟩

/-- Settles O28: the wiring of a known type is a bijection, in which the search finds the one position of each index. -/
theorem inverseTableInvertsWiring : Obligations.InverseTableInvertsWiring := fun g t j hg hlo hhi => by
  have hbij : (g.wiring t).Bijective := Registry.wiring_bijective hg hlo hhi
  have hget : (g.wiring t).get (g.inv t j) = j := Table.get_positionOf hbij j
  exact ⟨hget, fun i hi => hbij i (g.inv t j) (hi.trans hget.symm)⟩

end Sys2Proof.Machine
end

section
/-! PROOFS. The command word of spec/30_encoding.md: a row of the opcode map fixes a word's opcode and reserved bits, and
with them what the word decodes to; so the encoder and the decoder are inverse to each other. -/

namespace Sys2Proof

/-- A field that lies wholly under a mask is the field of the fixed bits (R47). -/
theorem extractLsb_of_and_eq {w m b : Word} {hi lo : Nat} (h : w &&& m = b)
    (hm : m.extractLsb hi lo = BitVec.allOnes _) : w.extractLsb hi lo = b.extractLsb hi lo := by
  rw [← h, BitVec.extractLsb_and, hm, BitVec.and_allOnes]

/-! The opcode chooses the format to check and the command to read (R41, R47). -/

variable {w : Word}

theorem decode_of_opcode_enc (h : w.extractLsb 31 28 = 0) : decode w = checked .c w (.enc (w.extractLsb 7 0)) := by
  rw [decode, opcodeOf, h]; rfl

theorem decode_of_opcode_setslot (h : w.extractLsb 31 28 = 1) :
    decode w = checked .s w (.setslot (slotField w) (w.extractLsb 11 8) (w.extractLsb 4 0)) := by
  rw [decode, opcodeOf, h]; rfl

theorem decode_of_opcode_setrefl (h : w.extractLsb 31 28 = 2) :
    decode w = checked .f w (.setrefl (w.extractLsb 3 0)) := by
  rw [decode, opcodeOf, h]; rfl

theorem decode_of_opcode_commit (h : w.extractLsb 31 28 = 3) : decode w = checked .n w .commit := by
  rw [decode, opcodeOf, h]; rfl

theorem decode_of_opcode_rdslot (h : w.extractLsb 31 28 = 4) : decode w = checked .q w (.rdslot (slotField w)) := by
  rw [decode, opcodeOf, h]; rfl

theorem decode_of_opcode_rdrefl (h : w.extractLsb 31 28 = 5) : decode w = checked .n w .rdrefl := by
  rw [decode, opcodeOf, h]; rfl

/-! A word that fits a row is that row's command, with the operands its fields hold (R43 to R47). -/

theorem decode_enc_of_fits (h : w &&& 0xFFFFFF00 = 0x00000000) : decode w = .ok (.enc (w.extractLsb 7 0)) := by
  have hop : w.extractLsb 31 28 = 0 := extractLsb_of_and_eq h (by decide)
  have hrsvd : w.extractLsb 27 8 = 0 := extractLsb_of_and_eq h (by decide)
  exact (decode_of_opcode_enc hop).trans (checked_eq_ok.mpr ⟨by simp [Format.reservedClear, hrsvd], rfl⟩)

theorem decode_setslot_of_fits (h : w &&& 0xF0FFF0E0 = 0x10000000) :
    decode w = .ok (.setslot (w.extractLsb 27 24) (w.extractLsb 11 8) (w.extractLsb 4 0)) := by
  have hop : w.extractLsb 31 28 = 1 := extractLsb_of_and_eq h (by decide)
  have hrsvd : w.extractLsb 23 12 = 0 := extractLsb_of_and_eq h (by decide)
  have hrsvd' : w.extractLsb 7 5 = 0 := extractLsb_of_and_eq h (by decide)
  exact (decode_of_opcode_setslot hop).trans (checked_eq_ok.mpr ⟨by simp [Format.reservedClear, hrsvd, hrsvd'], rfl⟩)

theorem decode_setrefl_of_fits (h : w &&& 0xFFFFFFF0 = 0x20000000) : decode w = .ok (.setrefl (w.extractLsb 3 0)) := by
  have hop : w.extractLsb 31 28 = 2 := extractLsb_of_and_eq h (by decide)
  have hrsvd : w.extractLsb 27 4 = 0 := extractLsb_of_and_eq h (by decide)
  exact (decode_of_opcode_setrefl hop).trans (checked_eq_ok.mpr ⟨by simp [Format.reservedClear, hrsvd], rfl⟩)

theorem decode_commit_of_fits (h : w &&& 0xFFFFFFFF = 0x30000000) : decode w = .ok .commit := by
  have hw : w = 0x30000000 := (BitVec.and_allOnes).symm.trans h
  rw [hw]; rfl

theorem decode_rdslot_of_fits (h : w &&& 0xF0FFFFFF = 0x40000000) : decode w = .ok (.rdslot (w.extractLsb 27 24)) := by
  have hop : w.extractLsb 31 28 = 4 := extractLsb_of_and_eq h (by decide)
  have hrsvd : w.extractLsb 23 0 = 0 := extractLsb_of_and_eq h (by decide)
  exact (decode_of_opcode_rdslot hop).trans (checked_eq_ok.mpr ⟨by simp [Format.reservedClear, hrsvd], rfl⟩)

theorem decode_rdrefl_of_fits (h : w &&& 0xFFFFFFFF = 0x50000000) : decode w = .ok .rdrefl := by
  have hw : w = 0x50000000 := (BitVec.and_allOnes).symm.trans h
  rw [hw]; rfl

/-- The encoding of a command agrees with its row of the opcode map. -/
theorem encode_and_mask (i : Instr) : encode i &&& i.row.mask = i.row.bits := by
  have hfits : i.row.fits (encode i) = true := by
    cases i with
    | enc ch => exact Laws.FitsRow.enc ch
    | setslot slot type off => exact Laws.FitsRow.setslot slot type off
    | setrefl rid => exact Laws.FitsRow.setrefl rid
    | commit => exact Laws.FitsRow.commit
    | rdslot slot => exact Laws.FitsRow.rdslot slot
    | rdrefl => exact Laws.FitsRow.rdrefl
  exact beq_iff_eq.mp hfits

/-- A field of a word whose number is known, as an operand. -/
theorem extractLsb_eq_of_toNat {hi lo : Nat} {x : BitVec (hi - lo + 1)}
    (h : w.toNat / 2 ^ lo % 2 ^ (hi - lo + 1) = x.toNat) : w.extractLsb hi lo = x :=
  BitVec.eq_of_toNat_eq ((extractLsb_toNat_div w hi lo).trans h)

/-- Settles O1: the encoding fits its row, which gives the command, and holds each operand in its field. -/
theorem decodeInvertsEncode : Obligations.DecodeInvertsEncode := fun i => by
  have hfits := encode_and_mask i
  cases i with
  | enc ch =>
    have hch : (encode (.enc ch)).extractLsb 7 0 = ch :=
      extractLsb_eq_of_toNat (by rw [encode_enc_toNat]; omega)
    rw [decode_enc_of_fits hfits, hch]
  | setslot slot type off =>
    have hslot : (encode (.setslot slot type off)).extractLsb 27 24 = slot :=
      extractLsb_eq_of_toNat (by rw [encode_setslot_toNat]; omega)
    have htype : (encode (.setslot slot type off)).extractLsb 11 8 = type :=
      extractLsb_eq_of_toNat (by rw [encode_setslot_toNat]; omega)
    have hoff : (encode (.setslot slot type off)).extractLsb 4 0 = off :=
      extractLsb_eq_of_toNat (by rw [encode_setslot_toNat]; omega)
    rw [decode_setslot_of_fits hfits, hslot, htype, hoff]
  | setrefl rid =>
    have hrid : (encode (.setrefl rid)).extractLsb 3 0 = rid :=
      extractLsb_eq_of_toNat (by rw [encode_setrefl_toNat]; omega)
    rw [decode_setrefl_of_fits hfits, hrid]
  | commit => exact decode_commit_of_fits hfits
  | rdslot slot =>
    have hslot : (encode (.rdslot slot)).extractLsb 27 24 = slot :=
      extractLsb_eq_of_toNat (by rw [encode_rdslot_toNat]; omega)
    rw [decode_rdslot_of_fits hfits, hslot]
  | rdrefl => exact decode_rdrefl_of_fits hfits

/-- A field that is 0, as a number. -/
theorem extractLsb_beq_zero {hi lo : Nat} :
    (w.extractLsb hi lo == 0) = true ↔ w.toNat / 2 ^ lo % 2 ^ (hi - lo + 1) = 0 := by
  rw [beq_iff_eq, ← BitVec.toNat_inj, extractLsb_toNat_div]; rfl

/-- Settles O2: the opcode, the operand fields and the reserved bits, which are 0, are all of the word. -/
theorem encodeInvertsDecode : Obligations.EncodeInvertsDecode := fun w i h => by
  have hcases := decode_cases w
  simp only [h, eq_comm (a := Except.ok i), checked_eq_ok, opcodeOf_toNat, Format.reservedClear, Bool.and_eq_true,
    extractLsb_beq_zero] at hcases
  apply BitVec.eq_of_toNat_eq
  rcases hcases with ⟨hop, hrsvd, rfl⟩ | ⟨hop, hrsvd, rfl⟩ | ⟨hop, hrsvd, rfl⟩ | ⟨hop, hrsvd, rfl⟩ |
    ⟨hop, hrsvd, rfl⟩ | ⟨hop, hrsvd, rfl⟩ | ⟨-, hbad⟩
  · rw [encode_enc_toNat, extractLsb_toNat_div]; omega
  · rw [encode_setslot_toNat, slotField, extractLsb_toNat_div, extractLsb_toNat_div, extractLsb_toNat_div]; omega
  · rw [encode_setrefl_toNat, extractLsb_toNat_div]; omega
  · rw [encode_commit_toNat]; omega
  · rw [encode_rdslot_toNat, slotField, extractLsb_toNat_div]; omega
  · rw [encode_rdrefl_toNat]; omega
  · cases hbad

/-- A word that decodes agrees with its command's row of the opcode map (R47, R49). -/
theorem and_mask_of_decode {i : Instr} (h : decode w = .ok i) : w &&& i.row.mask = i.row.bits := by
  rw [← encodeInvertsDecode w i h]
  exact encode_and_mask i

/-- The reserved opcodes are 6 and above (R47, R48). -/
theorem decode_eq_illegalOp : decode w = .error .illegalOp ↔ 6 ≤ (opcodeOf w).toNat := by
  have hdef {fmt i} (hlt : (opcodeOf w).toNat < 6) (hd : decode w = checked fmt w i) :
      decode w = .error .illegalOp ↔ 6 ≤ (opcodeOf w).toNat :=
    iff_of_false (hd ▸ checked_ne_illegal fmt w i) (Nat.not_le_of_lt hlt)
  rcases decode_cases w with ⟨hop, hd⟩ | ⟨hop, hd⟩ | ⟨hop, hd⟩ | ⟨hop, hd⟩ | ⟨hop, hd⟩ | ⟨hop, hd⟩ | ⟨hop, hd⟩
  case inr.inr.inr.inr.inr.inr => exact iff_of_true hd hop
  all_goals exact hdef (by omega) hd

/-- Settles O3: a decoded word fits its command's row, and a word that fits a row decodes to the row's command. -/
theorem decodeFollowsOpcodeMap : Obligations.DecodeFollowsOpcodeMap := fun _ =>
  ⟨⟨fun ⟨_, h⟩ => and_mask_of_decode h, fun h => ⟨_, decode_enc_of_fits h⟩⟩,
    ⟨fun ⟨_, _, _, h⟩ => and_mask_of_decode h, fun h => ⟨_, _, _, decode_setslot_of_fits h⟩⟩,
    ⟨fun ⟨_, h⟩ => and_mask_of_decode h, fun h => ⟨_, decode_setrefl_of_fits h⟩⟩,
    ⟨and_mask_of_decode, decode_commit_of_fits⟩,
    ⟨fun ⟨_, h⟩ => and_mask_of_decode h, fun h => ⟨_, decode_rdslot_of_fits h⟩⟩,
    ⟨and_mask_of_decode, decode_rdrefl_of_fits⟩,
    decode_eq_illegalOp⟩

/-- Settles O4: the row that the word fits fixes its opcode and its reserved bits, and the operands are its fields. -/
theorem decodeReadsOperandFields : Obligations.DecodeReadsOperandFields := fun w i h => by
  cases i with
  | enc ch =>
    have hfits : w &&& 0xFFFFFF00 = 0x00000000 := and_mask_of_decode h
    cases h.symm.trans (decode_enc_of_fits hfits)
    exact ⟨extractLsb_of_and_eq hfits (by decide), extractLsb_of_and_eq hfits (by decide), rfl⟩
  | setslot slot type off =>
    have hfits : w &&& 0xF0FFF0E0 = 0x10000000 := and_mask_of_decode h
    cases h.symm.trans (decode_setslot_of_fits hfits)
    exact ⟨extractLsb_of_and_eq hfits (by decide), extractLsb_of_and_eq hfits (by decide),
      extractLsb_of_and_eq hfits (by decide), rfl, rfl, rfl⟩
  | setrefl rid =>
    have hfits : w &&& 0xFFFFFFF0 = 0x20000000 := and_mask_of_decode h
    cases h.symm.trans (decode_setrefl_of_fits hfits)
    exact ⟨extractLsb_of_and_eq hfits (by decide), extractLsb_of_and_eq hfits (by decide), rfl⟩
  | commit =>
    have hfits : w &&& 0xFFFFFFFF = 0x30000000 := and_mask_of_decode h
    exact ⟨extractLsb_of_and_eq hfits (by decide), extractLsb_of_and_eq hfits (by decide),
      extractLsb_of_and_eq hfits (by decide)⟩
  | rdslot slot =>
    have hfits : w &&& 0xF0FFFFFF = 0x40000000 := and_mask_of_decode h
    cases h.symm.trans (decode_rdslot_of_fits hfits)
    exact ⟨extractLsb_of_and_eq hfits (by decide), extractLsb_of_and_eq hfits (by decide), rfl⟩
  | rdrefl =>
    have hfits : w &&& 0xFFFFFFFF = 0x50000000 := and_mask_of_decode h
    exact ⟨extractLsb_of_and_eq hfits (by decide), extractLsb_of_and_eq hfits (by decide),
      extractLsb_of_and_eq hfits (by decide)⟩

/-- A word with a set bit that its command's row fixes at 0 fails the check of the reserved bits (R47, R49). -/
theorem decode_eq_rsvdBits_of_checked {rsvd mask bits : Word} {fmt : Format} {i : Instr}
    (hd : decode w = checked fmt w i) (hrow : i.row = ⟨mask, bits⟩) (hset : w &&& rsvd ≠ 0)
    (hrsvd : mask &&& rsvd = rsvd ∧ bits &&& rsvd = 0) : decode w = .error .rsvdBits := by
  rcases checked_cases fmt w i with ⟨-, hok⟩ | ⟨-, herr⟩
  · have hfits : w &&& mask = bits := by simpa only [hrow] using and_mask_of_decode (hd.trans hok)
    have hclear : w &&& rsvd = 0 := by rw [← hrsvd.1, ← BitVec.and_assoc, hfits, hrsvd.2]
    exact absurd hclear hset
  · exact hd.trans herr

/-- A set reserved bit under a defined opcode is E_RSVD_BITS (R43 to R45, R49). -/
theorem decode_eq_rsvdBits
    (h : (w.extractLsb 31 28 = 0 ∧ w &&& 0x0FFFFF00 ≠ 0) ∨ (w.extractLsb 31 28 = 1 ∧ w &&& 0x00FFF0E0 ≠ 0) ∨
      (w.extractLsb 31 28 = 2 ∧ w &&& 0x0FFFFFF0 ≠ 0) ∨ (w.extractLsb 31 28 = 3 ∧ w &&& 0x0FFFFFFF ≠ 0) ∨
      (w.extractLsb 31 28 = 4 ∧ w &&& 0x00FFFFFF ≠ 0) ∨ (w.extractLsb 31 28 = 5 ∧ w &&& 0x0FFFFFFF ≠ 0)) :
    decode w = .error .rsvdBits := by
  rcases h with ⟨hop, hset⟩ | ⟨hop, hset⟩ | ⟨hop, hset⟩ | ⟨hop, hset⟩ | ⟨hop, hset⟩ | ⟨hop, hset⟩
  · exact decode_eq_rsvdBits_of_checked (decode_of_opcode_enc hop) rfl hset (by decide)
  · exact decode_eq_rsvdBits_of_checked (decode_of_opcode_setslot hop) rfl hset (by decide)
  · exact decode_eq_rsvdBits_of_checked (decode_of_opcode_setrefl hop) rfl hset (by decide)
  · exact decode_eq_rsvdBits_of_checked (decode_of_opcode_commit hop) rfl hset (by decide)
  · exact decode_eq_rsvdBits_of_checked (decode_of_opcode_rdslot hop) rfl hset (by decide)
  · exact decode_eq_rsvdBits_of_checked (decode_of_opcode_rdrefl hop) rfl hset (by decide)

end Sys2Proof
end

section
/-! PROOFS. The assembler of spec/30_encoding.md R52 to R54, the clock edge at which a word is accepted (R40, R48), and
the run of CONFIG's words. -/

namespace Sys2Proof.Machine

open Sys2Proof

/-- Settles O6: the assembler makes only encodings of commands. -/
theorem assembledWordsAreCommands : Obligations.AssembledWordsAreCommands := fun line ws h w hw => by
  obtain ⟨is, -, rfl⟩ := Option.map_eq_some_iff.mp h
  obtain ⟨i, -, rfl⟩ := List.mem_map.mp hw
  exact ⟨i, decodeInvertsEncode i⟩

/-- Settles O5: fixed lines and fixed words, evaluated. -/
theorem encodingExamplesAssembleAndDecode : Obligations.EncodingExamplesAssembleAndDecode :=
  ⟨by decide, by decide⟩

/-- Settles O9: the edge accepts the word, which is its command. -/
theorem stepExecutesDecodedCommand : Obligations.StepExecutesDecodedCommand := fun s w rest _ h =>
  (step_present { s with port := rest } w).trans (accept_of_ok _ w h)

/-- An accepted word that does not decode raises its error with `rsp_data` 0 and changes nothing else (R48, R113). -/
theorem step_command_of_error (s : State) {w : Word} (rest : List PortInput) {e : Error} (h : decode w = .error e) :
    step { s with port := .command w :: rest } =
      .next { s with rsp := { valid := true, data := 0, err := true, code := errorCode e }, port := rest } :=
  (step_present { s with port := rest } w).trans (accept_of_error _ w h)

/-- Settles O10: the two ways a word fails to decode, each raised at the edge that accepts it. -/
theorem stepRaisesDecodeErrors : Obligations.StepRaisesDecodeErrors := fun s _ rest =>
  ⟨fun h => step_command_of_error s rest (decode_eq_illegalOp.mpr h),
    fun h => step_command_of_error s rest (decode_eq_rsvdBits h)⟩

/-- A run whose next input presents a command's word executes that command on its first edge (R40, R128). -/
theorem run_command {k : Nat} {s t : State} {i : Instr} {rest : List PortInput}
    (hp : s.port = .command (encode i) :: rest) (h : exec i { s with port := rest } = .next t) :
    Host.Core.run core (k + 1) s = Host.Core.run core k t :=
  run_succ_of_next k <| (step_of_cons s rest hp).trans <| (accept_of_ok _ _ (decodeInvertsEncode i)).trans h

/-- A vector of three is the list of its entries. -/
theorem vector_three_eta {α : Type} (v : Vector α 3) : v = #v[v[0], v[1], v[2]] := by
  ext j hj
  interval_cases j <;> rfl

/-- The commands that make `c` active (R53): its three slots, its reflector and COMMIT. -/
def configCommands (c : Configuration 3) : List Instr :=
  [.setslot 0 c.types[0] c.offs[0], .setslot 1 c.types[1] c.offs[1], .setslot 2 c.types[2] c.offs[2],
    .setrefl c.refl, .commit]

/-- CONFIG of a configuration of this hardware stands for its commands (R53). -/
theorem expand_config (c : Configuration 3) :
    expand (.config (c.types.toList.map BitVec.toNat) (c.offs.toList.map BitVec.toNat) c.refl.toNat) =
      configCommands c := by
  rw [vector_three_eta c.types, vector_three_eta c.offs]
  simp [expand, configCommands]

/-- Nothing is left of a vector of three once every entry has been written. -/
theorem vector_three_set_all {α : Type} (u v : Vector α 3) : ((u.set 0 v[0]).set 1 v[1]).set 2 v[2] = v := by
  ext j hj
  interval_cases j <;> simp

section
variable {k : Nat} {a : Active 3} {st : Configuration 3} {r : Response} {rest : List PortInput}

/-- SETSLOT on the next edge of a run stages one slot (R94). -/
theorem run_setslot {slot type : BitVec 4} {off : BitVec 5} (h : slot.toNat < 3) :
    Host.Core.run core (k + 1) (⟨a, st, r, .command (encode (.setslot slot type off)) :: rest⟩ : State) =
      Host.Core.run core k (⟨a, ⟨st.types.set slot.toNat type, st.offs.set slot.toNat off, st.refl⟩,
        ⟨true, 0, false, 0⟩, rest⟩ : State) :=
  run_command rfl (exec_setslot_of_lt _ h)

/-- SETREFL on the next edge of a run stages the reflector (R96). -/
theorem run_setrefl {rid : BitVec 4} :
    Host.Core.run core (k + 1) (⟨a, st, r, .command (encode (.setrefl rid)) :: rest⟩ : State) =
      Host.Core.run core k (⟨a, ⟨st.types, st.offs, rid⟩, ⟨true, 0, false, 0⟩, rest⟩ : State) :=
  run_command rfl rfl

/-- COMMIT of a legal configuration on the next edge of a run installs it (R99). -/
theorem run_commit (h : st.Legal Config.registry) :
    Host.Core.run core (k + 1) (⟨a, st, r, .command (encode .commit) :: rest⟩ : State) =
      Host.Core.run core k (⟨Active.ofConfiguration st, st, ⟨true, 0, false, 0⟩, rest⟩ : State) :=
  run_command rfl (exec_commit_legal _ h)

end

/-- The words of CONFIG from any state: four of them stage a legal configuration whole, and COMMIT installs it. -/
theorem run_configCommands (s : State) {c : Configuration 3} (rest : List PortInput) (hc : c.Legal Config.registry) :
    Host.Core.run core 5 { s with port := (configCommands c).map (fun i => .command (encode i)) ++ rest } =
      .next (⟨Active.ofConfiguration c, c, ⟨true, 0, false, 0⟩, rest⟩ : State) :=
  calc
    _ = Host.Core.run core 1 (⟨s.active,
          ⟨((s.staging.types.set 0 c.types[0]).set 1 c.types[1]).set 2 c.types[2],
            ((s.staging.offs.set 0 c.offs[0]).set 1 c.offs[1]).set 2 c.offs[2], c.refl⟩,
          ⟨true, 0, false, 0⟩, .command (encode .commit) :: rest⟩ : State) :=
      (run_setslot (by decide)).trans <| (run_setslot (by decide)).trans <| (run_setslot (by decide)).trans run_setrefl
    _ = Host.Core.run core 1 (⟨s.active, c, ⟨true, 0, false, 0⟩, .command (encode .commit) :: rest⟩ : State) := by
      simp only [vector_three_set_all]
    _ = _ := run_commit hc

/-- Settles O40: CONFIG expands to the commands of `run_configCommands`. -/
theorem configPseudoInstalls : Obligations.ConfigPseudoInstalls := fun s c rest hc => by
  simp only [expand_config]
  exact run_configCommands s rest hc

end Sys2Proof.Machine
end

section
/-! PROOFS. The registries of spec/40_registries.md: what a notch mask holds (R28), and with it how many notches the
reference tables give each rotor type and where they stand (R56, R59). -/

namespace Sys2Proof

/-- The fold that makes a notch mask adds the listed positions to the bits it starts from. -/
theorem getLsbD_foldl_notches (ps : List Nat) (m : BitVec 26) {o : Nat} (ho : o < 26) :
    (ps.foldl (fun m k => m ||| BitVec.ofNat 26 (2 ^ k)) m).getLsbD o = true ↔ m.getLsbD o = true ∨ o ∈ ps := by
  induction ps generalizing m with
  | nil => simp
  | cons k ps ih =>
    have hbit : (BitVec.ofNat 26 (2 ^ k)).getLsbD o = true ↔ o = k := by
      rw [BitVec.getLsbD_ofNat, Nat.testBit_two_pow]
      simp [ho, eq_comm]
    rw [List.foldl_cons, ih, BitVec.getLsbD_or, Bool.or_eq_true, hbit, List.mem_cons, or_assoc]

/-- R28: the bits of a notch mask are the listed positions. -/
theorem getLsbD_notchMask (ps : List Nat) {o : Nat} (ho : o < 26) :
    (notchMask ps).getLsbD o = true ↔ o ∈ ps :=
  (getLsbD_foldl_notches ps 0 ho).trans (by simp)

/-- A notch mask has as many elements as it lists, when it lists none twice and each in 0..25 (R62 (b)). -/
theorem notchCount_notchMask {ps : List Nat} (hnodup : ps.Nodup) (hlt : ∀ o ∈ ps, o < 26) :
    notchCount (notchMask ps) = ps.length := by
  have hperm : ((List.range 26).filter fun o => (notchMask ps).getLsbD o).Perm ps := by
    refine (List.perm_ext_iff_of_nodup (List.nodup_range.filter _) hnodup).mpr fun o => ?_
    rw [List.mem_filter, List.mem_range]
    exact ⟨fun ⟨ho, hbit⟩ => (getLsbD_notchMask ps ho).mp hbit,
      fun hmem => ⟨hlt o hmem, (getLsbD_notchMask ps (hlt o hmem)).mpr hmem⟩⟩
  rw [notchCount, List.countP_eq_length_filter, hperm.length_eq]

/-- An offset is a notch of a type exactly when the type's mask lists it (R10, R28). -/
theorem Registry.isNotch_iff_mem {g : Registry} {t : BitVec 4} {ps : List Nat} (h : g.notches t = notchMask ps)
    (o : Fin 26) : g.isNotch t (BitVec.ofNat 5 o.val) = true ↔ o.val ∈ ps := by
  have ho : (BitVec.ofNat 5 o.val).toNat = o.val := by
    rw [BitVec.toNat_ofNat, Nat.mod_eq_of_lt (by omega)]
  rw [Registry.isNotch, h, ho, getLsbD_notchMask ps o.isLt]

/-- `NOTCHES` as R59 lists it: the turnover letters of types I to VIII. -/
def Config.turnovers : Vector (List Nat) 8 := #v[[16], [4], [21], [9], [25], [25, 12], [25, 12], [25, 12]]

/-- The reference masks hold the turnover letters of R59; type 1 is the first row (R55). -/
theorem Config.registry_notches (k : Fin 8) :
    Config.registry.notches (BitVec.ofNat 4 (k.val + 1)) = notchMask (Config.turnovers.get k) := by
  fin_cases k <;> rfl

/-- A reference type has as many notches as R59 lists turnover letters for it. -/
theorem Config.notchCount_registry (k : Fin 8) :
    notchCount (Config.registry.notches (BitVec.ofNat 4 (k.val + 1))) = (Config.turnovers.get k).length := by
  have hlisted : ∀ k : Fin 8, (Config.turnovers.get k).Nodup ∧ ∀ o ∈ Config.turnovers.get k, o < 26 := by decide
  rw [Config.registry_notches, notchCount_notchMask (hlisted k).1 (hlisted k).2]

/-- Settles O34: the tables were checked when the parameters were; the counts are the lengths of R59's lists. -/
theorem referenceTablesAreLegal : Obligations.ReferenceTablesAreLegal := by
  refine ⟨Config.parameters_legal.registry, fun t => ?_, fun t => ?_⟩
  · have hone : ∀ t : Fin 5, (Config.turnovers.get (t.castLE (by decide))).length = 1 := by decide
    exact (Config.notchCount_registry (t.castLE (by decide))).trans (hone t)
  · have htwo : ∀ t : Fin 3, (Config.turnovers.get (t.natAdd 5)).length = 2 := by decide
    rw [← htwo t, ← Config.notchCount_registry, Fin.val_natAdd, Nat.add_comm 5, Nat.add_assoc]

/-- Settles O35: an offset is a notch of a type exactly when it is on R59's list for the type. -/
theorem referenceNotchesAreTurnoverLetters : Obligations.ReferenceNotchesAreTurnoverLetters := fun o => by
  have hnotch (k : Fin 8) := Registry.isNotch_iff_mem (Config.registry_notches k) o
  exact ⟨(hnotch 0).trans List.mem_singleton, (hnotch 1).trans List.mem_singleton,
    (hnotch 2).trans List.mem_singleton, (hnotch 3).trans List.mem_singleton,
    (hnotch 4).trans List.mem_singleton, (hnotch 5).trans List.mem_pair,
    (hnotch 6).trans List.mem_pair, (hnotch 7).trans List.mem_pair⟩

end Sys2Proof
end

section
/-! PROOFS. The round of spec/41_stepping.md slot by slot: what step 3 finds at each slot (R67 to R73), and from it the
advances, the carries and the double step (R74 to R79). -/

namespace Sys2Proof.Machine

open Sys2Proof

/-- One step of an offset register, reduced once (R9, R68). -/
theorem nextOffset_toNat_eq (o : BitVec 5) : (nextOffset o).toNat = (o.toNat + 1) % 26 := by
  rw [nextOffset_toNat, Nat.mod_add_mod]

/-- Two steps move the offset too. -/
theorem nextOffset_nextOffset_ne (o : BitVec 5) : nextOffset (nextOffset o) ≠ o := by
  intro h
  have htwo := congrArg BitVec.toNat h
  rw [nextOffset_toNat, nextOffset_toNat] at htwo
  omega

/-- A slot that is cycled if `c` holds: what steps 2 and 3 of the round do to a slot (R71, R72). -/
def Slot.cycledIf (g : Registry) (c : Bool) (s : Slot) : Slot := if c then s.cycled g else s

section
variable (g : Registry) (c : Bool) (s : Slot)

@[simp] theorem cycledIf_false : s.cycledIf g false = s := rfl

@[simp] theorem cycledIf_true : s.cycledIf g true = s.cycled g := rfl

/-- The three fields: the flag is armed by a landing on a notch, and only by that (R68). -/
theorem cycledIf_eq :
    s.cycledIf g c =
      { type := s.type, offset := if c then nextOffset s.offset else s.offset,
        pend := s.pend || (c && g.isNotch s.type (nextOffset s.offset)) } := by
  cases c with
  | false => rw [cycledIf_false, Bool.false_and, Bool.or_false]; rfl
  | true  => rfl

@[simp] theorem cycledIf_type : (s.cycledIf g c).type = s.type := by
  rw [cycledIf_eq]

@[simp] theorem cycledIf_offset : (s.cycledIf g c).offset = if c then nextOffset s.offset else s.offset := by
  rw [cycledIf_eq]

@[simp] theorem cycledIf_pend : (s.cycledIf g c).pend = (s.pend || (c && g.isNotch s.type (nextOffset s.offset))) := by
  rw [cycledIf_eq]

variable {s}

theorem cycledIf_offset_le (h : s.offset.toNat ≤ 25) : (s.cycledIf g c).offset.toNat ≤ 25 := by
  cases c with
  | false => exact h
  | true  => exact nextOffset_le _

theorem cycledIf_offset_toNat (h : s.offset.toNat ≤ 25) :
    (s.cycledIf g c).offset.toNat = (s.offset.toNat + if c then 1 else 0) % 26 := by
  cases c with
  | false => exact (Nat.mod_eq_of_lt (Nat.lt_succ_of_le h)).symm
  | true  => exact nextOffset_toNat_eq _

end

/-- Slot `j` as step 3 of the round finds it at index `j` (R72), after steps 1 and 2 and the carries below it. -/
def visited {n : Nat} (g : Registry) (v : Vector Slot n) (j : Nat) (hj : j < n) : Slot :=
  arrived g (selfStep g (cycle g 0 v)) j hj

section
variable {n : Nat} (g : Registry) (v : Vector Slot n)

/-- The round leaves a slot as step 3 finds it, with its flag taken unless it is the slowest (R72). -/
theorem round_get_visited (j : Nat) (hj : j < n) :
    (round g v)[j] = if j + 1 < n then (visited g v j hj).clearPend else visited g v j hj :=
  round_get g v j hj

theorem round_offset_visited (j : Nat) (hj : j < n) : (round g v)[j].offset = (visited g v j hj).offset :=
  round_offset g v j hj

/-- Slot 0 has been cycled by step 1 (R70). -/
theorem visited_zero (h : 0 < n) : visited g v 0 h = v[0].cycled g := by
  rw [visited, arrived_zero, stepped_get, if_pos rfl]

/-- Step 2 has cycled slot 1 exactly if it stood on its notch (R71). -/
theorem stepped_one (h : 1 < n) : (selfStep g (cycle g 0 v))[1] = v[1].cycledIf g (v[1].onNotch g) := by
  rw [stepped_get, if_neg Nat.one_ne_zero]
  cases hn : v[1].onNotch g with
  | false => rw [if_neg (by simp), cycledIf_false]
  | true  => rw [if_pos ⟨rfl, rfl⟩, cycledIf_true]

/-- Slot 1 has taken its own step, and after it the carry of slot 0 (R71, R72). -/
theorem visited_one (h : 1 < n) :
    visited g v 1 h = (v[1].cycledIf g (v[1].onNotch g)).cycledIf g (v[0].cycled g).pend := by
  rw [← stepped_one, ← visited_zero]
  rfl

/-- A slot from 2 on has taken the carry of the slot before it, and nothing else (R72, R76). -/
theorem visited_succ {i : Nat} (hi : 1 ≤ i) (h : i + 1 < n) :
    visited g v (i + 1) h = v[i + 1].cycledIf g (visited g v i (by omega)).pend := by
  have huntouched : (selfStep g (cycle g 0 v))[i + 1] = v[i + 1] := by
    rw [stepped_get, if_neg (by omega), if_neg (by omega)]
  rw [← huntouched]
  rfl

/-- Slot 0 takes one step in every round (R70). -/
theorem round_offset_zero (h : 0 < n) : (round g v)[0].offset = nextOffset v[0].offset := by
  rw [round_offset_visited, visited_zero, cycled_offset]

/-- Slot 0 carries if its flag was set or it lands on a notch (R68, R72). -/
theorem cycled_zero_pend (h : 0 < n) :
    (v[0].cycled g).pend = (v[0].pend || g.isNotch v[0].type (round g v)[0].offset) := by
  rw [cycled_pend, round_offset_zero]

/-- A slot from 2 on steps in a round exactly if the slot before it carries (R72, R76). -/
theorem round_offset_succ {i : Nat} (hi : 1 ≤ i) (h : i + 1 < n) :
    (round g v)[i + 1].offset =
      if (visited g v i (by omega)).pend then nextOffset v[i + 1].offset else v[i + 1].offset := by
  rw [round_offset_visited, visited_succ g v hi h, cycledIf_offset]

/-- Slot 1 advances by 1 for its own notch and by 1 for slot 0's carry (R77). -/
theorem round_offset_one_toNat (h : 1 < n) (hle : v[1].offset.toNat ≤ 25) :
    (round g v)[1].offset.toNat =
      (v[1].offset.toNat + (if g.isNotch v[1].type v[1].offset then 1 else 0) +
        (if v[0].pend || g.isNotch v[0].type (round g v)[0].offset then 1 else 0)) % 26 := by
  rw [round_offset_visited g v 1 h, visited_one, cycled_zero_pend,
    cycledIf_offset_toNat _ _ (cycledIf_offset_le _ _ hle), cycledIf_offset_toNat _ _ hle, Nat.mod_add_mod]
  rfl

/-- A slot beyond slot 1 whose flag was clear carries exactly if it stepped in this round and landed on a notch (R76). -/
theorem visited_pend_iff {i : Nat} (hi : 2 ≤ i) (h : i < n) (hclear : v[i].pend = false) :
    (visited g v i h).pend = true ↔
      (round g v)[i].offset ≠ v[i].offset ∧ g.isNotch v[i].type (round g v)[i].offset = true := by
  obtain ⟨i, rfl⟩ : ∃ k, i = k + 1 := ⟨i - 1, by omega⟩
  rw [round_offset_succ g v (by omega), visited_succ g v (by omega), cycledIf_pend, hclear, Bool.false_or]
  cases (visited g v i (by omega)).pend with
  | false => simp
  | true  => simp [nextOffset_ne]

end

/-- Settles O18, by the effects of a command; the one that writes the active state runs a round, which keeps the types. -/
theorem encWritesOnlyOffsetsAndFlags : Obligations.EncWritesOnlyOffsetsAndFlags := fun ch s t h => by
  cases execEffect_of_next h with
  | complete | raise => exact ⟨fun _ => rfl, rfl, rfl, rfl, fun _ => rfl⟩
  | letter _ _ hl _ =>
    exact ⟨fun i => round_type Config.registry s.active.slots i.val i.isLt, rfl, rfl, rfl,
      fun hother => absurd (hl.symm.trans hother) (by decide)⟩

/-- Settles O20, by `cycle_get` and the fields of a cycled slot. -/
theorem cycleAdvancesAndArms : Obligations.CycleAdvancesAndArms := by
  refine ⟨fun n g v i h hle => ?_, by decide⟩
  have hself : (cycle g i v)[i] = v[i].cycled g := by rw [cycle_get, if_pos rfl]
  rw [hself]
  refine ⟨?_, ?_, rfl, fun j hj hne => ?_⟩
  · rw [cycled_offset, nextOffset_toNat_eq]
    split <;> omega
  · rw [cycled_pend, cycled_offset, Bool.or_eq_true]
  · rw [cycle_get, if_neg hne.symm]

/-- Settles O21, slot by slot. -/
theorem roundAdvancesEachSlot : Obligations.RoundAdvancesEachSlot := fun n g v hle => by
  refine ⟨fun h => ?_, fun h => round_offset_one_toNat g v h (hle ⟨1, h⟩), fun i h hi => ?_⟩
  · rw [round_offset_zero g v h, nextOffset_toNat_eq]
  · obtain ⟨i, rfl⟩ : ∃ k, i = k + 1 := ⟨i - 1, by omega⟩
    rw [round_offset_succ g v (by omega) h]
    split
    · exact .inr (nextOffset_toNat_eq _)
    · exact .inl rfl

/-- Settles O22: the flags' frame of a round, and that it changes no type. -/
theorem roundLeavesNoCarry : Obligations.RoundLeavesNoCarry := fun _ g v i h =>
  ⟨round_pend_of_lt g v i, round_pend_slowest g v i h, round_type g v i h⟩

/-- Settles O23: the carry into a slot is the flag step 3 finds in the slot before it. -/
theorem carryRipplesThroughSlowSlots : Obligations.CarryRipplesThroughSlowSlots := fun n g v hclear i h hi => by
  have hcarry := visited_pend_iff g v hi (by omega) (hclear ⟨i, by omega⟩ h)
  rw [round_offset_succ g v (by omega) h]
  exact if_congr hcarry rfl rfl

/-- Settles O24: each slot as step 3 finds it is the closed form's, and the carries are the flags it finds. -/
theorem roundEqualsCombinationalFunction : Obligations.RoundEqualsCombinationalFunction := fun g a b c => by
  have hzero := visited_zero g #v[a, b, c] (by decide)
  have hone := visited_one g #v[a, b, c] (by decide)
  have htwo := visited_succ g #v[a, b, c] (i := 1) le_rfl (by decide)
  ext j hj
  rw [round_get_visited]
  interval_cases j
  · rw [hzero]; rfl
  · rw [hone, cycledIf_eq, cycledIf_type, cycledIf_offset]; rfl
  · rw [htwo, hone, cycledIf_eq, cycledIf_pend, cycledIf_pend, cycledIf_type, cycledIf_offset]; rfl

/-- A rotor type whose only notch is `k` (R57, R78). -/
def SingleNotch (g : Registry) (t : BitVec 4) (k : BitVec 5) : Prop :=
  ∀ o : BitVec 5, o.toNat ≤ 25 → (g.isNotch t o = true ↔ o = k)

section
variable {n : Nat} {g : Registry} {v : Vector Slot n}

/-- Every other offset of active state is no notch. -/
theorem SingleNotch.isNotch_eq_false {t : BitVec 4} {k o : BitVec 5} (hk : SingleNotch g t k) (ho : o.toNat ≤ 25)
    (hne : o ≠ k) : g.isNotch t o = false :=
  Bool.eq_false_iff.mpr fun hnotch => hne ((hk o ho).mp hnotch)

/-- Step 2 cycles a slot 1 that stands on its notch (R71). -/
theorem stepped_one_of_onNotch (h : 1 < n) (hnotch : g.isNotch v[1].type v[1].offset = true) :
    (selfStep g (cycle g 0 v))[1] = v[1].cycled g := by
  rw [stepped_one, Slot.onNotch, hnotch, cycledIf_true]

/-- Slot 1 that starts a round on a notch steps itself, and takes slot 0's carry too if there is one (R71, R78). -/
theorem round_offset_one_of_onNotch (h : 1 < n) (hnotch : g.isNotch v[1].type v[1].offset = true) :
    (round g v)[1].offset =
      if (v[0].cycled g).pend then nextOffset (nextOffset v[1].offset) else nextOffset v[1].offset := by
  rw [round_offset_visited g v 1 h, visited_one, Slot.onNotch, hnotch, cycledIf_true, cycledIf_offset, cycled_offset]

/-- Leaving a single notch by one or two steps lands on none, so slot 2 gets no carry (R78). -/
theorem round_offset_two_of_onNotch (h : 2 < n) (hle : v[1].offset.toNat ≤ 25)
    (hk : SingleNotch g v[1].type v[1].offset) (hclear : v[1].pend = false) :
    (round g v)[2].offset = v[2].offset := by
  have hone : g.isNotch v[1].type (nextOffset v[1].offset) = false :=
    hk.isNotch_eq_false (nextOffset_le _) (nextOffset_ne _)
  have htwo : g.isNotch v[1].type (nextOffset (nextOffset v[1].offset)) = false :=
    hk.isNotch_eq_false (nextOffset_le _) (nextOffset_nextOffset_ne _)
  have hnocarry : (visited g v 1 (by omega)).pend = false := by
    rw [visited_one, Slot.onNotch, (hk _ hle).mpr rfl, cycledIf_true, cycledIf_pend, cycled_pend, cycled_type,
      cycled_offset, hclear, hone, htwo, Bool.and_false]
    rfl
  rw [round_offset_succ g v le_rfl h, hnocarry]
  rfl

/-- Slot 1 off its notch that takes slot 0's carry steps once, and carries slot 2 if it lands on a notch (R78). -/
theorem round_carried_onto_notch (h : 2 < n) (hoff : g.isNotch v[1].type v[1].offset = false)
    (hcarry : (v[0].cycled g).pend = true) (hland : g.isNotch v[1].type (nextOffset v[1].offset) = true) :
    (round g v)[1].offset = nextOffset v[1].offset ∧ (round g v)[2].offset = nextOffset v[2].offset := by
  have hvisited : visited g v 1 (by omega) = v[1].cycled g := by
    rw [visited_one, Slot.onNotch, hoff, hcarry, cycledIf_false, cycledIf_true]
  refine ⟨by rw [round_offset_visited, hvisited, cycled_offset], ?_⟩
  rw [round_offset_succ g v le_rfl h, hvisited, cycled_pend, hland, Bool.or_true]
  rfl

end

/-- Settles O25: in (a) the first round carries slot 1 onto its notch and the second starts there, as (b) does. -/
theorem middleSlotDoubleSteps : Obligations.MiddleSlotDoubleSteps := by
  refine ⟨fun n h g v k hk hsingle hclear hle hland => ?_, by decide, by decide⟩
  have hcarry : (v[0].cycled g).pend = true := by rw [cycled_pend, hland, Bool.or_true]
  refine ⟨fun hbefore => ?_, fun hon => ?_⟩
  · subst hbefore
    have hoff := SingleNotch.isNotch_eq_false hsingle hle (nextOffset_ne _).symm
    obtain ⟨hone, htwo⟩ := round_carried_onto_notch h hoff hcarry ((hsingle _ hk).mpr rfl)
    have hsingle' : SingleNotch g (round g v)[1].type (round g v)[1].offset := by
      rw [round_type, hone]; exact hsingle
    have hle' : (round g v)[1].offset.toNat ≤ 25 := by rw [hone]; exact hk
    have hnotch' := (hsingle' _ hle').mpr rfl
    refine ⟨hone, htwo, ?_, ?_, ?_⟩
    · rw [stepped_one_of_onNotch (by omega) hnotch', cycled_offset, hone]
    · rw [round_offset_one_of_onNotch (by omega) hnotch', hone]
      split
      · exact nextOffset_nextOffset_ne _
      · exact nextOffset_ne _
    · exact round_offset_two_of_onNotch h hle' hsingle' (round_pend_of_lt g v 1 h)
  · subst hon
    refine ⟨?_, round_offset_two_of_onNotch h hle hsingle (hclear ⟨1, by omega⟩ h)⟩
    rw [round_offset_one_of_onNotch (by omega) ((hsingle _ hle).mpr rfl), hcarry]
    rfl

/-- `k` rounds advance slot 0 by `k` modulo 26 (R70). -/
theorem iterate_round_offset_zero {n : Nat} (g : Registry) (v : Vector Slot n) (h : 0 < n)
    (hle : v[0].offset.toNat ≤ 25) (k : Nat) :
    ((round g)^[k] v)[0].offset.toNat = (v[0].offset.toNat + k) % 26 := by
  induction k with
  | zero => exact (Nat.mod_eq_of_lt (Nat.lt_succ_of_le hle)).symm
  | succ k ih =>
    rw [Function.iterate_succ_apply', round_offset_zero, nextOffset_toNat_eq, ih, Nat.mod_add_mod, Nat.add_assoc]

/-- Settles O26: steps 2 and 3 do nothing, and slot 0 advances by 26 in 26 rounds. -/
theorem singleSlotReturnsAfterRevolution : Obligations.SingleSlotReturnsAfterRevolution := fun g v hle => by
  have hround : (round g v)[0] = v[0].cycled g := by
    rw [round_get_visited, visited_zero, if_neg (by decide)]
  refine ⟨rfl, ?_, fun hnotch => ?_, round_pend_slowest g v 0 (by decide) rfl, BitVec.eq_of_toNat_eq ?_⟩
  · rw [hround, cycled_offset, nextOffset_toNat_eq]
  · rw [hround] at hnotch ⊢
    rw [cycled_pend, ← cycled_offset g, hnotch, Bool.or_true]
  · rw [iterate_round_offset_zero g v (by decide) hle]
    omega

/-- Settles O27: the two-slot case of slot 1's advance, and the slowest slot's sticky flag. -/
theorem twoSlotsSelfStepAndStick : Obligations.TwoSlotsSelfStepAndStick := fun g a b _ hb =>
  ⟨round_offset_one_toNat g #v[a, b] (by decide) hb, round_pend_slowest g #v[a, b] 1 (by decide) rfl⟩

end Sys2Proof.Machine
end

section
/-! PROOFS. The signal path of spec/42_signal_path.md: the backward cascade inverts the forward one, so the path is the
reflector conjugated by a bijection, and inherits being an involution with no fixed point. -/

namespace Sys2Proof.Machine

open Sys2Proof

variable {g : Registry}

/-- Settles O29: an offset in 0..25 is its own index; the cascade and the examples are the model evaluated. -/
theorem pathIsCascadeOfShiftedLookups : Obligations.PathIsCascadeOfShiftedLookups := by
  refine ⟨fun g s x h => ?_, fun _ _ _ _ _ _ => rfl, by decide⟩
  have ho : indexOf s.offset = ⟨s.offset.toNat, by omega⟩ := Fin.ext (indexOf_val_of_le h)
  exact ⟨by rw [Slot.fwd, ho], by rw [Slot.bwd, ho]⟩

/-- The slot's rotor type is a row of the registry (R55). -/
abbrev Slot.Known (g : Registry) (s : Slot) : Prop := 1 ≤ s.type.toNat ∧ s.type.toNat ≤ g.ntypes

/-- R88: the offsets cancel, and `INV[t]` finds the position of an entry of `WIRING[t]`. -/
theorem bwd_fwd (hg : g.Legal) {s : Slot} (hs : s.Known g) (x : Index) : s.bwd g (s.fwd g x) = x := by
  rw [Slot.bwd, Slot.fwd, add26_sub26, Registry.inv,
    Table.positionOf_get (Registry.wiring_bijective hg hs.1 hs.2), sub26_add26]

/-- R88: the offsets cancel, and `WIRING[t]` has its index at the position `INV[t]` finds. -/
theorem fwd_bwd (hg : g.Legal) {s : Slot} (hs : s.Known g) (x : Index) : s.fwd g (s.bwd g x) = x := by
  rw [Slot.bwd, Slot.fwd, add26_sub26, Registry.inv,
    Table.get_positionOf (Registry.wiring_bijective hg hs.1 hs.2), sub26_add26]

/-- Settles O30, one lemma a direction. -/
theorem backwardPassInvertsForwardPass : Obligations.BackwardPassInvertsForwardPass :=
  fun _ _ x hg hlo hhi => ⟨bwd_fwd hg ⟨hlo, hhi⟩ x, fwd_bwd hg ⟨hlo, hhi⟩ x⟩

/-- R88 for a whole cascade: each slot's backward pass meets what its forward pass made. -/
theorem backward_forward (hg : g.Legal) {slots : List Slot} (hs : ∀ s ∈ slots, s.Known g) (x : Index) :
    backward g slots (forward g slots x) = x := by
  induction slots generalizing x with
  | nil => rfl
  | cons s slots ih =>
    obtain ⟨hhead, htail⟩ := List.forall_mem_cons.mp hs
    exact (congrArg (s.bwd g) (ih htail (s.fwd g x))).trans (bwd_fwd hg hhead x)

/-- R88 for a whole cascade, the other way round. -/
theorem forward_backward (hg : g.Legal) {slots : List Slot} (hs : ∀ s ∈ slots, s.Known g) (x : Index) :
    forward g slots (backward g slots x) = x := by
  induction slots with
  | nil => rfl
  | cons s slots ih =>
    obtain ⟨hhead, htail⟩ := List.forall_mem_cons.mp hs
    exact (congrArg (forward g slots) (fwd_bwd hg hhead (backward g slots x))).trans (ih htail)

/-- ENC of a letter answers a letter (R93). -/
theorem isLetter_encipher (g : Registry) {n : Nat} (a : Active n) (ch : Byte) : isLetter (a.encipher g ch) = true :=
  isLetter_letterByte _

section

variable {n : Nat} {a : Active n} (hg : g.Legal) (ha : a.Legal g)
include ha

/-- Every slot of a legal active configuration is of a known type (R95). -/
theorem known_of_legal : ∀ s ∈ a.slots.toList, s.Known g := fun s hs => by
  obtain ⟨i, hi, rfl⟩ := Vector.mem_iff_getElem.mp (Vector.mem_toList_iff.mp hs)
  obtain ⟨hlo, hhi, -⟩ := ha.1 ⟨i, hi⟩
  rw [Vector.get_eq_getElem, configuration_type] at hlo hhi
  exact ⟨hlo, hhi⟩

include hg

/-- The forward cascade carries the path to the reflection (R87, R88). -/
theorem forward_path (x : Index) :
    forward g a.slots.toList (a.path g x) = reflect g a.refl (forward g a.slots.toList x) :=
  forward_backward hg (known_of_legal ha) _

/-- R89: the second pass meets the reflector where the first one left it. -/
theorem path_path (x : Index) : a.path g (a.path g x) = x := by
  have hreflect : ∀ y, reflect g a.refl (reflect g a.refl y) = y := fun y =>
    (Registry.reflector_reflecting hg ha.2 y).1
  calc a.path g (a.path g x)
      = backward g a.slots.toList (reflect g a.refl (forward g a.slots.toList (a.path g x))) := rfl
    _ = backward g a.slots.toList (forward g a.slots.toList x) := by rw [forward_path hg ha, hreflect]
    _ = x := backward_forward hg (known_of_legal ha) x

/-- R90: a fixed point of the path would be carried to one of the reflector. -/
theorem path_ne (x : Index) : a.path g x ≠ x := fun hfix => by
  have hreflect := forward_path hg ha x
  rw [hfix] at hreflect
  exact (Registry.reflector_reflecting hg ha.2 _).2 hreflect.symm

/-- Deciphering at the same configuration answers the upper-cased letter (R89, R93). -/
theorem encipher_encipher (ch : Byte) : a.encipher g (a.encipher g ch) = letterByte (letterIndex ch) := by
  rw [Active.encipher, Active.encipher, letterIndex_letterByte, path_path hg ha]

end

/-- The response word of an output letter (R51, R93). -/
theorem zext32_letterByte (i : Index) : zext32 (letterByte i) = BitVec.ofNat 32 (0x41 + i.val) := by
  apply BitVec.eq_of_toNat_eq
  rw [zext32, BitVec.toNat_setWidth, letterByte_toNat, BitVec.toNat_ofNat]

/-- The low byte of a response word that holds a byte (R8). -/
theorem extractLsb_zext32 (b : Byte) : (zext32 b).extractLsb 7 0 = b := by
  apply BitVec.eq_of_toNat_eq
  rw [zext32, BitVec.extractLsb_toNat, BitVec.toNat_setWidth]
  omega

/-- Different indices are answered by different words. -/
theorem zext32_letterByte_injective : Function.Injective fun i : Index => zext32 (letterByte i) :=
  Function.LeftInverse.injective (g := fun d => letterIndex (d.extractLsb 7 0)) fun i =>
    (congrArg letterIndex (extractLsb_zext32 _)).trans (letterIndex_letterByte i)

/-- An ENC of a letter that answers ran at a legal active configuration, by its rule (R93). -/
theorem exec_enc_letter_eq_next {ch : Byte} {s t : State} (hl : isLetter ch = true)
    (h : exec (.enc ch) s = .next t) :
    s.active.Legal Config.registry ∧
      t = (s.activate (s.active.stepped Config.registry)).complete
        (zext32 ((s.active.stepped Config.registry).encipher Config.registry ch)) := by
  by_cases hleg : s.active.Legal Config.registry
  · rw [exec_enc_letter s hl hleg] at h
    cases h
    exact ⟨hleg, rfl⟩
  · rw [exec_enc_illegal s hl hleg] at h
    cases h

/-- Settles O31: both ENCs run the same round, and the second one's path undoes the first one's. -/
theorem pathIsInvolution : Obligations.PathIsInvolution := by
  refine ⟨fun _ _ _ x hg ha => path_path hg ha x, fun ch s hl hleg => ?_⟩
  have hback := encipher_encipher Config.parameters_legal.registry (stepped_legal hleg) ch
  have hsecond := exec_enc_letter s (isLetter_encipher Config.registry (s.active.stepped Config.registry) ch) hleg
  rw [hback, ← extractLsb_zext32 (Active.encipher _ _ ch)] at hsecond
  exact ⟨_, _, exec_enc_letter s hl hleg, hsecond, zext32_letterByte _, rfl⟩

/-- Settles O32: the words of two letters are equal only if the letters are. -/
theorem pathHasNoFixedPoint : Obligations.PathHasNoFixedPoint := by
  refine ⟨fun _ _ _ x hg ha => path_ne hg ha x, fun ch s t hl h hsame => ?_⟩
  obtain ⟨hleg, rfl⟩ := exec_enc_letter_eq_next hl h
  rw [← zext32_letterByte] at hsame
  exact path_ne Config.parameters_legal.registry (stepped_legal hleg) _ (zext32_letterByte_injective hsame)

/-- Settles O33: an involution is a bijection, and ENC reads its letter and the active state only. -/
theorem pathIsBijective : Obligations.PathIsBijective := by
  refine ⟨fun _ _ _ hg ha => Function.Involutive.bijective (path_path hg ha),
    fun ch ch' s s' t hl hl' hindex hactive h => ?_⟩
  obtain ⟨hleg, rfl⟩ := exec_enc_letter_eq_next hl h
  rw [hactive] at hleg
  refine ⟨_, exec_enc_letter s' hl' hleg, ?_, ?_⟩
  · simp only [complete_rsp, Active.encipher, hindex, hactive]
  · simp only [complete_active, activate_active, hactive]

end Sys2Proof.Machine
end

section
/-! PROOFS. The commands of spec/43_commands.md: which failure validation finds first (R97), the response words as
numbers (R51), and with them what each command answers and leaves unchanged. -/

namespace Sys2Proof.Machine

open Sys2Proof

section
variable {n : Nat} {g : Registry} {c : Configuration n}

/-- R97, R109: an unknown type is reported whatever the offset is. -/
theorem validateSlot_of_unknown {i : Nat} {t : BitVec 4} {o : BitVec 5}
    (ht : ¬(1 ≤ t.toNat ∧ t.toNat ≤ g.ntypes)) : validateSlot g i t o = some (.cfgRotor, BitVec.ofNat 32 i) :=
  if_pos (by omega)

/-- R97, R110: the offset of a slot of a known type is reported when it is above 25. -/
theorem validateSlot_of_known {i : Nat} {t : BitVec 4} {o : BitVec 5} (ht : 1 ≤ t.toNat ∧ t.toNat ≤ g.ntypes)
    (ho : 26 ≤ o.toNat) : validateSlot g i t o = some (.cfgOffset, BitVec.ofNat 32 i) := by
  rw [validateSlot, if_neg (by omega), if_pos (by omega)]

/-- R97: the slots are visited in increasing order, so the lowest slot that fails decides. -/
theorem validate_of_slot {f : Failure} {i : Fin n}
    (hbelow : ∀ j < i, validateSlot g j.val (c.types.get j) (c.offs.get j) = none)
    (hi : validateSlot g i.val (c.types.get i) (c.offs.get i) = some f) : validate g c = some f := by
  obtain ⟨below, above, hsplit⟩ := List.append_of_mem (List.mem_finRange i)
  have hsorted : (below ++ i :: above).Pairwise (· < ·) := hsplit ▸ (List.sortedLT_finRange n).pairwise
  have hlt : ∀ j ∈ below, j < i := fun j hj => (List.pairwise_append.mp hsorted).2.2 j hj i List.mem_cons_self
  exact Option.or_eq_some_iff.mpr <| .inl <|
    List.findSome?_eq_some_iff.mpr ⟨below, i, above, hsplit, hi, fun j hj => hbelow j (hlt j hj)⟩

/-- R97, R111: the reflector is looked at once every slot has passed. -/
theorem validate_of_refl (hslots : ∀ i : Fin n, validateSlot g i.val (c.types.get i) (c.offs.get i) = none)
    (hr : g.nrefl ≤ c.refl.toNat) : validate g c = some (.cfgRefl, zext32 c.refl) :=
  Option.or_eq_some_iff.mpr <| .inr ⟨List.findSome?_eq_none_iff.mpr fun i _ => hslots i, if_pos hr⟩

end

/-- A configuration error has a code of COMMIT's own rule (R99, R104). -/
theorem errorCode_of_configuration_error {e : Error} (h : e = .cfgRotor ∨ e = .cfgOffset ∨ e = .cfgRefl) :
    errorCode e = 4 ∨ errorCode e = 5 ∨ errorCode e = 6 := by
  rcases h with rfl | rfl | rfl
  · exact .inl rfl
  · exact .inr (.inl rfl)
  · exact .inr (.inr rfl)

/-- An entry of a vector after one entry has been written. -/
theorem vector_get_set {α : Type} {n : Nat} (v : Vector α n) (k j : Fin n) (a : α) :
    (v.set k a).get j = if j.val = k.val then a else v.get j := by
  rw [Vector.get_eq_getElem, Vector.getElem_set, Vector.get_eq_getElem]
  exact if_congr eq_comm rfl rfl

/-- The response word of RDSLOT as a number (R51, R101). -/
theorem word_toNat (s : Slot) :
    s.word.toNat = s.type.toNat * 2 ^ 16 + (if s.pend then 2 ^ 8 else 0) + s.offset.toNat := by
  have hpend : (BitVec.ofBool s.pend).toNat * 2 ^ 8 = if s.pend then 2 ^ 8 else 0 := by
    cases s.pend <;> rfl
  simp only [Slot.word, toNat_append_add, BitVec.toNat_ofNat]
  omega

/-- The response word of RDREFL as a number (R51, R102). -/
theorem reflWord_toNat {n : Nat} (hn : n < 2 ^ 8) (a : Active n) : a.reflWord.toNat = n * 2 ^ 8 + a.refl.toNat := by
  simp only [Active.reflWord, toNat_append_add, BitVec.toNat_ofNat]
  omega

/-- A byte at the distance of an index from the first letter of a case is a letter, and has that index (R12). -/
theorem letter_of_index {ch : Byte} {x : Index} (h : ch.toNat = 0x41 + x.val ∨ ch.toNat = 0x61 + x.val) :
    isLetter ch = true ∧ letterIndex ch = x := by
  have hx := x.isLt
  rcases h with h | h
  · exact ⟨(isLetter_iff ch).mpr (.inl (by omega)), letterIndex_upper h⟩
  · exact ⟨(isLetter_iff ch).mpr (.inr (by omega)), letterIndex_lower h⟩

/-- Settles O16: the rule of each command, with the error that it can raise (R104). -/
theorem everyCommandCompletes : Obligations.EveryCommandCompletes := fun i s hleg => by
  cases i with
  | enc ch =>
    cases hl : isLetter ch with
    | false => exact ⟨_, exec_enc_other s hl, rfl, rfl, .inl ⟨rfl, rfl⟩⟩
    | true => exact ⟨_, exec_enc_letter s hl hleg, rfl, rfl, .inl ⟨rfl, rfl⟩⟩
  | setslot slot type off =>
    obtain h | h := Nat.lt_or_ge slot.toNat Config.NROT
    · exact ⟨_, exec_setslot_of_lt s h, rfl, rfl, .inl ⟨rfl, rfl⟩⟩
    · exact ⟨_, exec_setslot_of_le s h, rfl, rfl, .inr ⟨rfl, rfl⟩⟩
  | setrefl rid => exact ⟨_, rfl, rfl, rfl, .inl ⟨rfl, rfl⟩⟩
  | commit =>
    cases hv : validate Config.registry s.staging with
    | none => exact ⟨_, exec_commit_legal s ((validate_eq_none _ _).mp hv), rfl, rfl, .inl ⟨rfl, rfl⟩⟩
    | some f =>
      have hcode := errorCode_of_configuration_error (validate_some _ hv)
      exact ⟨_, exec_commit_failure s hv, rfl, rfl, .inr ⟨rfl, hcode⟩⟩
  | rdslot slot =>
    obtain h | h := Nat.lt_or_ge slot.toNat Config.NROT
    · exact ⟨_, exec_rdslot_of_lt s h, rfl, rfl, .inl ⟨rfl, rfl⟩⟩
    · exact ⟨_, exec_rdslot_of_le s h, rfl, rfl, .inr ⟨rfl, rfl⟩⟩
  | rdrefl => exact ⟨_, rfl, rfl, rfl, .inl ⟨rfl, rfl⟩⟩

/-- Settles O17: ENC's two cases by its rule, and no fixed point because the round keeps the configuration legal. -/
theorem encRunsRoundThenPath : Obligations.EncRunsRoundThenPath := by
  refine ⟨fun ch s => ⟨fun hother => ?_, fun x hch hleg => ?_⟩, ?_⟩
  · exact exec_enc_other s (Bool.eq_false_iff.mpr fun hl => hother ((isLetter_iff ch).mp hl))
  · obtain ⟨hl, hx⟩ := letter_of_index hch
    have he := exec_enc_letter s hl hleg
    rw [Active.encipher, hx, zext32_letterByte] at he
    exact ⟨he, path_ne Config.parameters_legal.registry (stepped_legal hleg) x⟩
  · exact (exec_enc_letter State.reset rfl resetMeetsInvariant.legal).trans (congrArg Host.Outcome.next (by decide))

/-- Settles O36: the write of one entry leaves the others. -/
theorem setslotStagesOneSlot : Obligations.SetslotStagesOneSlot := fun slot type off s =>
  ⟨fun h => ⟨_, exec_setslot_of_lt s h,
      fun j => ⟨vector_get_set _ ⟨slot.toNat, h⟩ j type, vector_get_set _ ⟨slot.toNat, h⟩ j off⟩,
      rfl, rfl, rfl, rfl⟩,
    exec_setslot_of_le s⟩

/-- Settles O37: the rule itself. -/
theorem setreflStagesReflector : Obligations.SetreflStagesReflector := fun _ _ => rfl

/-- Settles O38: validation passes exactly the legal configurations, and fails with a configuration error. -/
theorem commitInstallsOrKeeps : Obligations.CommitInstallsOrKeeps := fun s => by
  refine ⟨fun hleg => ?_, fun hbad => ?_⟩
  · refine ⟨_, exec_commit_legal s hleg, fun i => ?_, rfl, rfl, rfl, rfl⟩
    exact ofConfiguration_slot s.staging i.val i.isLt
  · cases hv : validate Config.registry s.staging with
    | none => exact absurd ((validate_eq_none _ _).mp hv) hbad
    | some f => exact ⟨f.1, f.2, rfl, validate_some _ hv, _, exec_commit_failure s hv, rfl, rfl, rfl, rfl⟩

/-- Settles O39: the failure of the lowest slot, or else of the reflector, is the one that COMMIT raises. -/
theorem commitReportsFirstFailure : Obligations.CommitReportsFirstFailure := fun s => by
  intro known good
  have hpass (j : Fin 3) (hj : good j) :
      validateSlot Config.registry j.val (s.staging.types.get j) (s.staging.offs.get j) = none :=
    (validateSlot_eq_none _ _ _ _).mpr (and_assoc.mp hj)
  refine ⟨fun i hbelow ht => ?_, fun i hbelow ht ho => ?_, fun hgood hr => ?_, fun hgood hr => ?_⟩
  · exact exec_commit_failure s (validate_of_slot (fun j hj => hpass j (hbelow j hj)) (validateSlot_of_unknown ht))
  · exact exec_commit_failure s (validate_of_slot (fun j hj => hpass j (hbelow j hj)) (validateSlot_of_known ht ho))
  · exact exec_commit_failure s (validate_of_refl (fun i => hpass i (hgood i)) hr)
  · exact ⟨_, exec_commit_legal s ⟨fun i => and_assoc.mp (hgood i), hr⟩, rfl⟩

/-- Settles O41: the bit layout of `word_toNat` at the active slot. -/
theorem rdslotReadsActiveSlot : Obligations.RdslotReadsActiveSlot := fun _ s =>
  ⟨fun h => ⟨_, exec_rdslot_of_lt s h, word_toNat _⟩, exec_rdslot_of_le s⟩

/-- Settles O42: the bit layout of `reflWord_toNat` for three slots. -/
theorem rdreflReadsReflectorAndSlotCount : Obligations.RdreflReadsReflectorAndSlotCount := fun s =>
  ⟨s.active.reflWord, rfl, reflWord_toNat (by decide) s.active⟩

end Sys2Proof.Machine
end

section
/-! PROOFS. The errors of spec/60_exceptions.md: an accepted word that raises one writes the response registers alone
(R105, R113), so the next word is accepted as usual; and the idle edge of R120. -/

namespace Sys2Proof.Machine

open Sys2Proof

/-- A command whose response carries an error has written the response registers alone (R113): the writes of R93 to
R102 all come with the response of success. -/
theorem ExecEffect.changes_only_rsp_of_err {s t : State} {i : Instr} (h : ExecEffect s i t) (herr : t.rsp.err = true) :
    t = { s with rsp := t.rsp } := by
  cases h with
  | complete | raise => rfl
  | letter | stageSlot | stageRefl | install => exact absurd herr Bool.false_ne_true

/-- No command reads or writes the inputs still to come. -/
theorem ExecEffect.port_eq {s t : State} {i : Instr} (h : ExecEffect s i t) : t.port = s.port := by
  cases h <;> rfl

/-- What the acceptance of a word leads to: the error of a word that is no command, or an effect of its command (R92). -/
theorem accept_effect {w : Word} {s t : State} (h : accept w s = .next t) :
    (∃ e, t = s.raise e 0) ∨ ∃ i, ExecEffect s i t := by
  cases hd : decode w with
  | error e =>
    rw [accept_of_error s w hd] at h
    cases h
    exact .inl ⟨e, rfl⟩
  | ok i => exact .inr ⟨i, execEffect_of_next ((accept_of_ok s w hd).symm.trans h)⟩

theorem accept_changes_only_rsp_of_err {w : Word} {s t : State} (h : accept w s = .next t) (herr : t.rsp.err = true) :
    t = { s with rsp := t.rsp } := by
  obtain ⟨e, rfl⟩ | ⟨i, hx⟩ := accept_effect h
  · rfl
  · exact hx.changes_only_rsp_of_err herr

theorem accept_port_eq {w : Word} {s t : State} (h : accept w s = .next t) : t.port = s.port := by
  obtain ⟨e, rfl⟩ | ⟨i, hx⟩ := accept_effect h
  · rfl
  · exact hx.port_eq

/-- Settles O15: the error left the active configuration as it was, so it is legal still and the next word is answered. -/
theorem errorChangesOnlyResponse : Obligations.ErrorChangesOnlyResponse := fun s t w rest h herr => by
  have haccept : accept w { s with port := rest } = .next t := (step_present { s with port := rest } w).symm.trans h
  have hframe : t = { s with rsp := t.rsp, port := rest } := accept_changes_only_rsp_of_err haccept herr
  refine ⟨hframe, fun hlegal w' rest' => ?_⟩
  have hactive : t.active = s.active := by rw [hframe]
  obtain ⟨u, hu, hvalid, -⟩ := accept_responds w' (s := { t with port := rest' }) (hactive ▸ hlegal)
  exact ⟨u, (step_present { t with port := rest' } w').trans hu, hvalid, accept_port_eq hu⟩

/-- Settles O11: neither a reset nor a valid word, so the edge is the idle one, whatever `cmd` carries. -/
theorem idleEdgeChangesOnlyValid : Obligations.IdleEdgeChangesOnlyValid := fun s w rest =>
  step_of_cons { s with port := { rst := false, cmdValid := false, cmd := w } :: rest } rest rfl

end Sys2Proof.Machine
end

section
/-! PROOFS. The reset edge of spec/70_reset_and_hazards.md: it comes before any command (R123) and leaves the values of
R124. -/

namespace Sys2Proof.Machine

open Sys2Proof

/-- R123: with `rst = 1` no command is accepted, whatever else the inputs carry. -/
theorem clockEdge_of_rst {p : PortInput} (s : State) (h : p.rst = true) : clockEdge p s = .next s.hardReset := if_pos h

/-- The table of R124. -/
theorem hardReset_eq_resetValues (s : State) :
    s.hardReset = {
      active := { slots := #v[⟨3, 0, false⟩, ⟨2, 0, false⟩, ⟨1, 0, false⟩], refl := 1 }
      staging := { types := #v[3, 2, 1], offs := #v[0, 0, 0], refl := 1 }
      rsp := { valid := false, data := 0, err := false, code := 0 }
      port := s.port } := rfl

/-- Settles O13: the edge is the reset one (R123), which leaves the values of R124. -/
theorem resetEdgeRestoresResetValues : Obligations.ResetEdgeRestoresResetValues := fun s valid w rest => by
  rw [step_of_cons _ rest rfl, clockEdge_of_rst _ rfl, hardReset_eq_resetValues]

end Sys2Proof.Machine
end

section
/-! PROOFS. Where a step stops: at no fault but that of an illegal active configuration, at no refusal, and not for want
of inputs (notes/assumptions/1.md and 4.md). -/

namespace Sys2Proof.Machine

open Sys2Proof

/-- Every command has a meaning: by `exec_cases` it answers a next state or faults. -/
theorem exec_ne_refused (i : Instr) (s : State) (r : Refusal) : exec i s ≠ .refused r := fun h => by
  rcases exec_cases s i with ⟨_, -, -, he⟩ | ⟨_, -, -, -, he⟩ | ⟨_, -, -, -, he⟩ | ⟨_, _, _, _, -, he⟩ |
    ⟨_, _, _, -, -, he⟩ | ⟨_, -, he⟩ | ⟨-, -, he⟩ | ⟨_, _, -, -, -, he⟩ | ⟨_, _, -, he⟩ | ⟨_, -, -, he⟩ | ⟨-, he⟩ <;>
    cases he.symm.trans h

/-- A word that is no command is answered with its error (R92, R106, R107), and every command has a meaning. -/
theorem accept_ne_refused (w : Word) (s : State) (r : Refusal) : accept w s ≠ .refused r := fun h => by
  cases hd : decode w with
  | error e => cases (accept_of_error s w hd).symm.trans h
  | ok i => exact exec_ne_refused i s r ((accept_of_ok s w hd).symm.trans h)

theorem step_ne_refused (s : State) (r : Refusal) : step s ≠ .refused r := fun h => by
  rcases step_cases s with ⟨-, hidle⟩ | ⟨p, rest, -, ⟨-, hreset⟩ | ⟨-, -, hidle⟩ | ⟨-, -, haccept⟩⟩
  · cases hidle.symm.trans h
  · cases hreset.symm.trans h
  · cases hidle.symm.trans h
  · exact accept_ne_refused p.cmd _ r (haccept.symm.trans h)

/-- Settles O19: a fault contradicts the progress of a legal active configuration (`step_next_of_legal`). -/
theorem onlyIllegalConfigurationsFault : Obligations.OnlyIllegalConfigurationsFault := by
  refine ⟨fun s f hfault hlegal => ?_, step_ne_refused⟩
  obtain ⟨t, hnext⟩ := step_next_of_legal hlegal
  cases hnext.symm.trans hfault

/-- Settles O12: the idle edge of an empty port writes `rsp_valid` alone. -/
theorem emptyPortIsIdleEdge : Obligations.EmptyPortIsIdleEdge := fun s => step_of_empty { s with port := [] } rfl

end Sys2Proof.Machine
end
